-- ==== Sys2Proof/Word.lean ====
section
/-! DEFINITION. The byte, the CORE's only datum (00_scope.md R6, R8). -/

namespace Sys2Proof

/-- "The byte width is 8 bits" (R6). -/
abbrev Byte := BitVec 8

/-- The saturation threshold, 127 (R6). -/
def maxLen : Nat := 127

end Sys2Proof
end

