-- ==== Sys2Proof/Config.lean ====
section
/-! DEFINITION. What an implementation fixes (00_scope.md R7) and the free values (93_implementation_defined.md U8, U9). -/

namespace Sys2Proof

/-- The parameters the document leaves open (R7, D7). They stand in the state, where no step writes them, so that every
statement holds for all of them (log 1). -/
structure Params where
  /-- `P_MAX_LEN`: capacity of IMEM in bytes, the largest chunk a START accepts. -/
  pMaxLen : Nat
  /-- `P_OMEM_SIZE`: capacity of OMEM in bytes. -/
  pOmemSize : Nat
  /-- `P_CNT_WIDTH`: width in bits of POS, L, OLEN and LEN. -/
  pCntWidth : Nat
  deriving DecidableEq, Repr

/-- The constraints of R7: `P_MAX_LEN >= 1` and `2^P_CNT_WIDTH > 2 * P_MAX_LEN`. -/
abbrev Params.wf (p : Params) : Prop := 1 ≤ p.pMaxLen ∧ 2 * p.pMaxLen < 2 ^ p.pCntWidth

/-- The parameters of `State.reset`. DESIGN CHOICE, unsafe, log 1: the spec leaves them open; `P_OMEM_SIZE` is the
recommended `2 * P_MAX_LEN` and the width the smallest that R7 allows. -/
def Config.resetParams : Params := { pMaxLen := 256, pOmemSize := 512, pCntWidth := 10 }

/-- The three stores whose contents a reset leaves unspecified (R34). -/
inductive Space where
  | imem
  | omem
  | buf
  deriving DecidableEq, Repr

/-- FREE VALUE (log 2): the byte an address of a store holds when nothing has written it since the last reset ("any
value", U8, U9). The first number counts resets, the second is the address. It has no body: no proof can know a value of it. -/
opaque Config.unspecified : Space → Nat → Nat → Byte

end Sys2Proof
end

