-- ==== Sys2Proof/Syntax.lean ====
section
/-! DEFINITION. The fifteen rows of spec/opcode_table.json, the three kinds of code that carry them, and the names the
host uses for registers (30_encoding.md, 10_state.md R31). -/

namespace Sys2Proof

/-- One constructor per row of the opcode table. -/
inductive Instr where
  /-- PKT_RAW (R54, R69): control byte `0nnnnnnn` and the literals that follow it. -/
  | pktRaw (n : BitVec 7) (lits : List Byte)
  /-- PKT_REPEAT (R55, R70): control byte `1mmmmmmm` and the value byte. -/
  | pktRepeat (m : BitVec 7) (v : Byte)
  /-- PKT_RESERVED_0x80 (R57): control byte 0x80. -/
  | pktReserved
  /-- SCAN_RAW_NE (R80). -/
  | scanRawNe
  /-- SCAN_RAW_NE_FULL (R81). -/
  | scanRawNeFull
  /-- SCAN_RAW_EQ (R79). -/
  | scanRawEq
  /-- SCAN_REP_NE (R84). -/
  | scanRepNe
  /-- SCAN_REP_EQ (R82). -/
  | scanRepEq
  /-- SCAN_REP_EQ_SAT (R83). -/
  | scanRepEqSat
  /-- FIN_RAW (R87). -/
  | finRaw
  /-- FIN_REP (R88). -/
  | finRep
  /-- NOP (R100). -/
  | nop
  /-- START (R101); its operand is the interface register LEN (R64). -/
  | start
  /-- CMD_RESERVED (R110). -/
  | cmdReserved
  /-- RESET (R102). -/
  | reset
  deriving DecidableEq, Repr

/-- The three encoded objects of 30_encoding.md: bytes of a packet stream (R53), the transition selector (R60), the
command word (R63). -/
inductive Code where
  | packet (bytes : List Byte)
  | selector (sel : BitVec 4)
  | command (cmd : BitVec 2)
  deriving DecidableEq, Repr

/-- Why a code is rejected: only a packet stream can be (R58, R61, R63). -/
inductive Reject where
  /-- There is no byte to read a control byte from. -/
  | emptyStream
  /-- The packet's stated length runs past the end of the bytes (R58). -/
  | truncated
  deriving DecidableEq, Repr

/-- The interface registers 0 CTRL, 1 LEN, 2 STATUS, 3 OLEN (R31). -/
inductive IReg where
  | ctrl
  | len
  | status
  | olen
  deriving DecidableEq, Repr

/-- The packet `RAW{d0, ..., dn}` of the spec's notation (R66): its control byte is the literal count minus one. -/
def Instr.raw (lits : List Byte) : Instr := .pktRaw (BitVec.ofNat 7 (lits.length - 1)) lits

/-- The packet `REP(k, v)` of the spec's notation (R66): its control byte is `257 - k`, whose low seven bits are
those of `129 - k` for `2 <= k <= 128`. -/
def Instr.rep (k : Nat) (v : Byte) : Instr := .pktRepeat (BitVec.ofNat 7 (129 - k)) v

end Sys2Proof
end

