-- ==== Sys2Proof/Machine/State.lean ====
section
/-! DEFINITION. The state of the CORE (10_state.md R13 to R34), of the host that drives it (60_exceptions.md R119) and of the
reader of its output (40_packets.md R71), as plain data; the state after reset; the reasons a step can stop. -/

namespace Sys2Proof.Machine

/-- PHASE (R14): IDLE = 0, RUN = 1. -/
inductive Phase where
  | idle
  | run
  deriving DecidableEq, Repr

/-- MODE (R15): RAW = 0, REPEAT = 1. -/
inductive Mode where
  | raw
  | rep
  deriving DecidableEq, Repr

/-- FCODE (R23, R103): the seven codes the spec gives. Code 7 is reserved and never written, and a state that holds it is
outside the model (U5), so the type has none (log 15). -/
inductive FCode where
  /-- 0: no fault since reset. -/
  | none
  /-- 1: a write of CMD = `10` (R110). -/
  | badCmd
  /-- 2: START while PHASE = RUN (R109). -/
  | startBusy
  /-- 3: START with LEN > P_MAX_LEN (R108). -/
  | length
  /-- 4: an input value above 255 (R107); it cannot fire with 8-bit IMEM. -/
  | inputRange
  /-- 5: a packet does not fit in OMEM (R111). -/
  | outOverflow
  /-- 6: a step from a state that breaks the check of R62 (R112). -/
  | invariant
  deriving DecidableEq, Repr

/-- The faults of Expand (R71). They are not CORE faults and have no FCODE. -/
inductive ExpandFault where
  | truncated
  | reservedControl
  deriving DecidableEq, Repr

/-- A byte store: (address, byte) pairs, addresses strictly rising. An unlisted address holds no written value; what a
read of it gives is `Config.unspecified` (log 2). -/
abbrev Memory := List Host.Cell

/-- The canonical form: addresses strictly rising. No entry can equal what an unlisted address reads as, since an
unlisted address reads as no value. -/
abbrev Memory.wf (m : Memory) : Prop := m.Pairwise (fun x y => x.1 < y.1)

/-- What the host can do (R67, R119), and what the outside world can: MODEL's own form of the host's lines, log 3 and 5. -/
inductive HostAct where
  /-- `M a, b`: the host stores one input byte. -/
  | writeImem (a : Nat) (b : Byte)
  /-- `W r, v`: write an interface register; a write of CTRL issues a command. -/
  | writeReg (r : IReg) (v : Nat)
  /-- `R r`: read an interface register. -/
  | readReg (r : IReg)
  /-- `RM a`: read one output byte. -/
  | readOmem (a : Nat)
  /-- `WAIT`: repeat `R 2` until DONE or FAULT is 1. -/
  | wait
  /-- A power-on reset (R123). -/
  | powerOn
  /-- Copy OMEM[0..OLEN-1] away and begin to read it as packets (R119 collect, R71). -/
  | collect
  /-- Begin to read a byte sequence of the host's own as packets (R71). -/
  | feed (bytes : List Byte)
  /-- Read the next packet (R71: strictly left to right). -/
  | readPacket
  deriving DecidableEq, Repr

/-- A pending host action, and how many CORE steps the host lets pass before it while the CORE has steps to take: the
interleaving of R121 as plain data (log 3). -/
structure HostMove where
  after : Nat
  act : HostAct
  deriving DecidableEq, Repr

/-- Expand in progress (R71): the bytes not yet read, the bytes expanded so far, and Expand's fault. Host-side, log 5. -/
structure Reader where
  stream : List Byte
  expanded : List Byte
  fault : Option ExpandFault
  deriving DecidableEq, Repr

/-- The state. Counters are naturals, as R8 has them; their legal ranges are stated in Sys2Proof/Safety.lean (log 11). -/
structure State where
  /-- The implementation's parameters (R7). No step writes them. -/
  cfg : Params
  /-- PHASE (R14). -/
  phase : Phase
  /-- MODE (R15). -/
  mode : Mode
  /-- RC, the repeat counter (R16). -/
  rc : BitVec 8
  /-- BUF, the raw buffer (R17), as the entries written since reset (log 18). -/
  buf : Memory
  /-- BLEN, the raw-buffer length (R18). -/
  blen : BitVec 8
  /-- POS, the cursor (R19). -/
  pos : Nat
  /-- L, the latched chunk length (R20). -/
  chunkLen : Nat
  /-- OLEN, the number of output bytes written (R21). -/
  olen : Nat
  /-- DONE (R22). -/
  done : Bool
  /-- FAULT (R23). -/
  fault : Bool
  /-- FCODE (R23). -/
  fcode : FCode
  /-- The interface register LEN (R31). -/
  lenReg : Nat
  /-- IMEM, the input space (R36). -/
  imem : Memory
  /-- OMEM, the output space (R39). -/
  omem : Memory
  /-- MODEL's own: how many resets there have been, the index of the free values (log 2). -/
  epoch : Nat
  /-- MODEL's own: the host's pending moves, first one next (log 3). -/
  script : List HostMove
  /-- MODEL's own: the values the host's reads returned, newest first (log 3). -/
  received : List Nat
  /-- MODEL's own: the reader of the output (log 5). -/
  reader : Reader
  deriving DecidableEq, Repr

/-- Right after power-on reset: the reset column of R34. The parameters (log 1) and the model's own fields (log 2, 3, 5)
are the model's choice. IMEM, OMEM and BUF list nothing: every byte is unspecified. -/
def State.reset : State :=
  { cfg := Config.resetParams
    phase := .idle
    mode := .raw
    rc := 0#8
    buf := []
    blen := 0#8
    pos := 0
    chunkLen := 0
    olen := 0
    done := false
    fault := false
    fcode := .none
    lenReg := 0
    imem := []
    omem := []
    epoch := 0
    script := []
    received := []
    reader := { stream := [], expanded := [], fault := Option.none } }

/-- Why a step stops. The CORE's own faults are NOT among these: they are states (FAULT = 1, R104). -/
inductive Fault where
  /-- The CORE is stuck: FAULT = 1 and no host move is pending, or a CORE transition is asked for while FAULT = 1 (R106,
  U18). Raised by a turn and by every CORE transition. Safe: the spec says the CORE has no step. -/
  | stuck
  /-- A CORE transition is asked for while PHASE = IDLE: the CORE has no step (R78). Raised by every CORE transition, never
  by a turn. Safe. -/
  | coreIdle
  /-- An access to an IMEM address that does not exist, at or above P_MAX_LEN, or a CORE read at or above L (R36, R38).
  Raised by the host's IMEM write and by MemRead. Safe: no run reaches the latter. -/
  | imemAddress
  /-- A host read of an OMEM address that does not exist, at or above P_OMEM_SIZE (R39). Safe. -/
  | omemAddress
  deriving DecidableEq, Repr

/-- Moves to which the spec says the model has no answer. -/
inductive Refusal where
  /-- An instruction with no meaning in the model. No arm answers with it. Safe. -/
  | notModelled (mnemonic : String)
  /-- A host write of IMEM while PHASE = RUN: the host has no such move (R126, U16; log 8). Raised by the host's IMEM write.
  Unsafe in the spec's own words ("toward proving"): the model has no run in which a host breaks this duty. -/
  | imemWriteInRun
  /-- A host read of OMEM or OLEN while a run is in progress: not modelled (R48, U15; log 7). Raised by the host's reads.
  Unsafe in the spec's own words ("toward proving for mid-run reads", D25). -/
  | outputReadInRun
  deriving DecidableEq, Repr

/-- A step's outcome. -/
abbrev Outcome := Host.Outcome State Fault Refusal

end Sys2Proof.Machine
end

