-- ==== Sys2Proof/Machine/Ops.lean ====
section
/-! DEFINITION. The named operations: byte stores (20_memory.md), entering a fault (60_exceptions.md R104) and leaving it by
reset (70_reset_and_hazards.md R123), the byte writer and its capacity check (43_emission.md R91, R92). -/

namespace Sys2Proof.Machine

/-- The byte written last at an address, `none` if nothing wrote it. -/
def Memory.read? : Memory → Nat → Option Byte
  | [], _ => none
  | (k, v) :: m, a => if a = k then some v else Memory.read? m a

/-- Store a byte, keeping the addresses strictly rising. -/
def Memory.write : Memory → Nat → Byte → Memory
  | [], a, b => [(a, b)]
  | (k, v) :: m, a, b =>
    if a < k then (a, b) :: (k, v) :: m
    else if a = k then (a, b) :: m
    else (k, v) :: Memory.write m a b

/-- `IMEM[a]`: the byte written there, or an unspecified one (R36, U9). -/
def State.imemByte (s : State) (a : Nat) : Byte :=
  (s.imem.read? a).getD (Config.unspecified .imem s.epoch a)

/-- `OMEM[a]`: the byte written there, or an unspecified one (R39, U9). -/
def State.omemByte (s : State) (a : Nat) : Byte :=
  (s.omem.read? a).getD (Config.unspecified .omem s.epoch a)

/-- `BUF[i]`: the byte written there, or an unspecified one (R17, U8). -/
def State.bufByte (s : State) (i : Nat) : Byte :=
  (s.buf.read? i).getD (Config.unspecified .buf s.epoch i)

/-- `raise Fault(code)` (R104): FAULT and FCODE are written and nothing else (R105). Nothing is saved, no vector is taken,
PHASE and MODE keep their values. The operation that raises is abandoned by its caller, which answers this state. -/
def State.raise (s : State) (code : FCode) : State :=
  { s with fault := true, fcode := code }

/-- Reset (R123, R34), the only way out of a fault (R115): every register takes its reset value, IMEM, OMEM and BUF become
unspecified, by a fresh index of the free values. The parameters and the host's own fields are no part of the block (log 19). -/
def State.performReset (s : State) : State :=
  { State.reset with
    cfg := s.cfg, epoch := s.epoch + 1, script := s.script, received := s.received, reader := s.reader }

/-- `Emit(b)` (R91): `MemWrite(OLEN, 1, b)` (R40), then OLEN advances. The whole packet has passed the capacity check, so
the address exists. -/
def State.emit (s : State) (b : Byte) : State :=
  { s with omem := s.omem.write s.olen b, olen := s.olen + 1 }

/-- Emit the bytes in order (R97). -/
def State.emitAll (s : State) : List Byte → State
  | [] => s
  | b :: bs => (s.emit b).emitAll bs

/-- Write a whole packet, or `none` where it does not fit in OMEM: the check is made before its first byte (R92). -/
def State.emitPacket (s : State) (bytes : List Byte) : Option State :=
  if s.olen + bytes.length > s.cfg.pOmemSize then none else some (s.emitAll bytes)

/-- Go on from a packet written, or take OUT_OVERFLOW with the state as it was before the operation (R92, R105). -/
def State.orOverflow (s : State) (written : Option State) (k : State → State) : Outcome :=
  match written with
  | some t => .next (k t)
  | none => .next (s.raise .outOverflow)

end Sys2Proof.Machine
end

