-- ==== Sys2Proof/Machine/Operands.lean ====
section
/-! DEFINITION. The operand forms: MemRead (20_memory.md R38), the raw buffer's entries (10_state.md R17), the operand START
takes from LEN (30_encoding.md R64), and the operands of a packet's control byte (30_encoding.md R56). -/

namespace Sys2Proof.Machine

/-- `MemRead(a, 1)` (R38): it requires `a < L`, and IMEM has `P_MAX_LEN` bytes (R36). -/
def State.memRead? (s : State) (a : Nat) : Option Byte :=
  if a < s.chunkLen ∧ a < s.cfg.pMaxLen then some (s.imemByte a) else none

/-- Go on with the byte under the cursor, `MemRead(POS, 1)`. -/
def State.withCursorByte (s : State) (k : Byte → Outcome) : Outcome :=
  match s.memRead? s.pos with
  | some b => k b
  | none => .fault .imemAddress

/-- `BUF[0..BLEN-1]`, in buffer order (R17, R94). -/
def State.bufBytes (s : State) : List Byte := (List.range s.blen.toNat).map s.bufByte

/-- `BUF[BLEN] <- b; BLEN <- BLEN + 1` (R80, R87). -/
def State.append (s : State) (b : Byte) : State :=
  { s with buf := s.buf.write s.blen.toNat b, blen := s.blen + 1#8 }

/-- The operand of START (R64). -/
def State.startOperand (s : State) : Nat := s.lenReg

/-- `OMEM[0..OLEN-1]` (R39). -/
def State.output (s : State) : List Byte := (List.range s.olen).map s.omemByte

/-- `IMEM[0..n-1]` (R36). -/
def State.input (s : State) (n : Nat) : List Byte := (List.range n).map s.imemByte

/-- The repeat count of a control byte `{1, m}`: `257 - c` (R56). -/
def repeatCount (m : BitVec 7) : Nat := 257 - (1#1 ++ m : BitVec 8).toNat

end Sys2Proof.Machine
end

