-- ==== Sys2Proof/Machine/Flags.lean ====
section
/-! DEFINITION. The predicates a step decodes (10_state.md R25 to R27), the selector (30_encoding.md R60), the check made
before it (R62), when the CORE has a step (41_scan.md R78), and the interface registers' views (10_state.md R31, R32). -/

namespace Sys2Proof.Machine

/-- FIN (R27): `POS = L - 1`, over the integers, so never with `L = 0`. -/
def State.fin (s : State) : Bool := s.pos + 1 == s.chunkLen

/-- EQ (R25): 0 when FIN = 1, and then `IMEM[POS + 1]` is not read; `none` where a read does not exist. -/
def State.eq? (s : State) : Option Bool :=
  if s.fin then some false
  else
    match s.memRead? s.pos, s.memRead? (s.pos + 1) with
    | some b, some b' => some (b == b')
    | _, _ => none

/-- SAT (R26), on the state before the step (90_conflicts.md C1). -/
def State.sat (s : State) : Bool :=
  match s.mode with
  | .raw => s.blen.toNat == maxLen
  | .rep => s.rc.toNat == maxLen

/-- MODE as the bit of R15. -/
def Mode.bit : Mode → Bool
  | .raw => false
  | .rep => true

/-- The selector `{FIN, MODE, EQ, SAT}` (R60). -/
def State.selector? (s : State) : Option (BitVec 4) :=
  s.eq?.map fun eq => BitVec.ofBool s.fin ++ BitVec.ofBool s.mode.bit ++ BitVec.ofBool eq ++ BitVec.ofBool s.sat

/-- The check made before the selector is decoded (R62); `POS <= L - 1` is over the integers. -/
def State.invariantsHold (s : State) : Bool :=
  decide (s.pos < s.chunkLen) &&
    match s.mode with
    | .raw => decide (s.rc = 0#8 ∧ s.blen.toNat ≤ maxLen ∧ s.blen.toNat ≤ s.pos)
    | .rep => decide (s.blen = 0#8 ∧ 1 ≤ s.rc.toNat ∧ s.rc.toNat ≤ maxLen)

/-- The CORE has a step exactly when PHASE = RUN and FAULT = 0 (R78). -/
def State.coreEnabled (s : State) : Bool := decide (s.phase = .run) && !s.fault

/-- The CORE's part common to every transition: no step while faulted (R106) or idle (R78), `Fault(INVARIANT)` before
anything else (R78, R112). -/
def State.coreStep (s : State) (body : Outcome) : Outcome :=
  if s.fault then .fault .stuck
  else
    match s.phase with
    | .idle => .fault .coreIdle
    | .run => if s.invariantsHold then body else .next (s.raise .invariant)

/-- FCODE's three bits (R103). -/
def FCode.bits : FCode → BitVec 3
  | .none => 0#3
  | .badCmd => 1#3
  | .startBusy => 2#3
  | .length => 3#3
  | .inputRange => 4#3
  | .outOverflow => 5#3
  | .invariant => 6#3

/-- STATUS (R32): `{0, FCODE, FAULT, MODE, BUSY, DONE}`. -/
def State.status (s : State) : BitVec 8 :=
  0#1 ++ s.fcode.bits ++ BitVec.ofBool s.fault ++ BitVec.ofBool s.mode.bit ++ BitVec.ofBool (decide (s.phase = .run))
    ++ BitVec.ofBool s.done

/-- What a read of an interface register returns (R31): CTRL reads 0. -/
def State.regValue (s : State) : IReg → Nat
  | .ctrl => 0
  | .len => s.lenReg
  | .status => s.status.toNat
  | .olen => s.olen

/-- A run is in progress and has not faulted: a host read of OMEM or OLEN is then not modelled (R48), while a faulted state
allows it (R106; log 7). -/
def State.outputUnsettled (s : State) : Bool := s.coreEnabled

end Sys2Proof.Machine
end

