-- ==== Sys2Proof/Machine/Commands.lean ====
section
/-! DEFINITION. The host commands (60_exceptions.md R100 to R102, R110). -/

namespace Sys2Proof.Machine

/-- NOP (R100): nothing, in every state. -/
def execNop (s : State) : Outcome := .next s

/-- Some byte of `IMEM[0..n-1]` is above 255 (R107). With 8-bit entries none is (log 16). -/
def State.inputOutOfRange (s : State) (n : Nat) : Bool := (s.input n).any fun b => decide (255 < b.toNat)

/-- The values an accepted START writes (R101, R34's START column). -/
def State.started (s : State) (n : Nat) : State :=
  { s with
    mode := .raw, rc := 0#8, blen := 0#8, pos := 0, olen := 0, chunkLen := n
    phase := if n = 0 then .idle else .run
    done := decide (n = 0) }

/-- START (R101): the checks in the order of R113, the first that applies being the only one reported. -/
def execStart (s : State) : Outcome :=
  if s.fault then .next s
  else if s.phase = .run then .next (s.raise .startBusy)
  else if s.startOperand > s.cfg.pMaxLen then .next (s.raise .length)
  else if s.inputOutOfRange s.startOperand then .next (s.raise .inputRange)
  else .next (s.started s.startOperand)

/-- CMD_RESERVED (R110): BAD_CMD in any phase, no effect while FAULT = 1 (R106). -/
def execCmdReserved (s : State) : Outcome :=
  if s.fault then .next s else .next (s.raise .badCmd)

/-- RESET (R102): the reset of R123, in every state. -/
def execReset (s : State) : Outcome := .next s.performReset

end Sys2Proof.Machine
end

