-- ==== Sys2Proof/Machine/Emission.lean ====
section
/-! DEFINITION. The packet builder (43_emission.md): the repeat control byte, FlushRaw, EmitRepeat. -/

namespace Sys2Proof.Machine

/-- `RepeatControl(count) = (256 - (count - 1)) mod 256` (R93), computed exactly and narrowed to 8 bits. -/
def repeatControl (count : Nat) : Byte := BitVec.ofInt 8 (256 - ((count : Int) - 1))

/-- The raw control byte `BLEN - 1` (R94). -/
def rawControl (blen : BitVec 8) : Byte := blen - 1#8

/-- FlushRaw (R94): nothing for an empty buffer, with no capacity check; else the packet, and BLEN becomes 0. The entries
of BUF stay as they are. `none` is OUT_OVERFLOW. -/
def State.flushRaw (s : State) : Option State :=
  if s.blen = 0#8 then some s
  else (s.emitPacket (rawControl s.blen :: s.bufBytes)).map fun t => { t with blen := 0#8 }

/-- EmitRepeat (R95): the control byte, then the value. `none` is OUT_OVERFLOW. RC is the caller's. -/
def State.emitRepeat (s : State) (count : Nat) (v : Byte) : Option State :=
  s.emitPacket [repeatControl count, v]

end Sys2Proof.Machine
end

