-- ==== Sys2Proof/Machine/Finalize.lean ====
section
/-! DEFINITION. The finalize transitions (42_finalize.md R87, R88). Neither moves POS, and MODE stays. -/

namespace Sys2Proof.Machine

/-- FIN_RAW (R87): append the final byte, flush, end the run. -/
def execFinRaw (s : State) : Outcome :=
  s.coreStep (s.withCursorByte fun b => s.orOverflow (s.append b).flushRaw fun t =>
    { t with phase := .idle, done := true })

/-- FIN_REP (R88): count the final byte, emit, end the run; RC keeps its final value. -/
def execFinRep (s : State) : Outcome :=
  s.coreStep (s.withCursorByte fun v => s.orOverflow (s.emitRepeat (s.rc.toNat + 1) v) fun t =>
    { t with rc := s.rc + 1#8, phase := .idle, done := true })

end Sys2Proof.Machine
end

