-- ==== Sys2Proof/WellFormed.lean ====
section
/-! DEFINITION. Which instructions are well formed: the packet forms constrain their operands (30_encoding.md R54, R55),
the selector transitions and the commands have none. -/

namespace Sys2Proof

/-- R54: a raw packet with control byte `n` carries exactly `n + 1` literals; R55: a repeat packet's low seven bits are
not all zero (`c /= 0x80`). -/
def Instr.wellFormed : Instr → Bool
  | .pktRaw n lits => lits.length == n.toNat + 1
  | .pktRepeat m _ => m != 0
  | .pktReserved => true
  | .scanRawNe => true
  | .scanRawNeFull => true
  | .scanRawEq => true
  | .scanRepNe => true
  | .scanRepEq => true
  | .scanRepEqSat => true
  | .finRaw => true
  | .finRep => true
  | .nop => true
  | .start => true
  | .cmdReserved => true
  | .reset => true

end Sys2Proof
end

