-- ==== Sys2Proof/Decode.lean ====
section
/-! DEFINITION. Decoding and encoding of the three kinds of code (30_encoding.md R53 to R65), and the opcode table as
match and mask rows. -/

namespace Sys2Proof

/-- `PacketLength(c)` (R58), `none` for the reserved control byte, whose length R58 leaves undefined. -/
def packetLength (c : Byte) : Option Nat :=
  if c.msb = false then some ((c.extractLsb' 0 7).toNat + 2)
  else if c = 0x80#8 then none
  else some 2

/-- The first packet of a stream and the bytes after it (R54 to R58): bit 7 tells raw from repeat, 0x80 is reserved. The
reserved packet is its control byte alone, as its row of the opcode table has it ("1 byte"), while R58 leaves a length
undefined; what follows it is left over (log 20). -/
def decodePacket : List Byte → Except Reject (Instr × List Byte)
  | [] => .error .emptyStream
  | c :: rest =>
    if c.msb = false then
      let n := c.extractLsb' 0 7
      if rest.length < n.toNat + 1 then .error .truncated
      else .ok (.pktRaw n (rest.take (n.toNat + 1)), rest.drop (n.toNat + 1))
    else if c = 0x80#8 then .ok (.pktReserved, rest)
    else
      match rest with
      | [] => .error .truncated
      | v :: rest' => .ok (.pktRepeat (c.extractLsb' 0 7) v, rest')

/-- The selector's decode (R61): `sel = {FIN, MODE, EQ, SAT}`, total, an `x` bit not looked at. -/
def decodeSelector (sel : BitVec 4) : Instr :=
  let fin := sel.getLsbD 3
  let mode := sel.getLsbD 2
  let eq := sel.getLsbD 1
  let sat := sel.getLsbD 0
  if fin then (if mode then .finRep else .finRaw)
  else if mode then
    (if eq then (if sat then .scanRepEqSat else .scanRepEq) else .scanRepNe)
  else if eq then .scanRawEq
  else if sat then .scanRawNeFull
  else .scanRawNe

/-- The command word's decode (R63). -/
def decodeCommand (cmd : BitVec 2) : Instr :=
  match cmd.getLsbD 1, cmd.getLsbD 0 with
  | false, false => .nop
  | false, true => .start
  | true, false => .cmdReserved
  | true, true => .reset

/-- Decoding of any code: an instruction and the bytes left over, or a rejection by name. -/
def decode : Code → Except Reject (Instr × List Byte)
  | .packet bytes => decodePacket bytes
  | .selector sel => .ok (decodeSelector sel, [])
  | .command cmd => .ok (decodeCommand cmd, [])

/-- The code of an instruction, from the same tables (R54, R55, R57, R61, R63); an `x` bit of the selector is 0. -/
def encode : Instr → Code
  | .pktRaw n lits => .packet ((0#1 ++ n : BitVec 8) :: lits)
  | .pktRepeat m v => .packet [(1#1 ++ m : BitVec 8), v]
  | .pktReserved => .packet [0x80#8]
  | .scanRawNe => .selector 0b0000#4
  | .scanRawNeFull => .selector 0b0001#4
  | .scanRawEq => .selector 0b0010#4
  | .scanRepNe => .selector 0b0100#4
  | .scanRepEq => .selector 0b0110#4
  | .scanRepEqSat => .selector 0b0111#4
  | .finRaw => .selector 0b1000#4
  | .finRep => .selector 0b1100#4
  | .nop => .command 0b00#2
  | .start => .command 0b01#2
  | .cmdReserved => .command 0b10#2
  | .reset => .command 0b11#2

/-- The bytes of a packet, `[]` for an instruction that is no packet. -/
def packetBytes (i : Instr) : List Byte :=
  match encode i with
  | .packet bytes => bytes
  | .selector _ => []
  | .command _ => []

/-- The selector rows of the opcode table: match, mask, transition (R61). -/
def selectorRows : List (BitVec 4 × BitVec 4 × Instr) :=
  [(0x0#4, 0xF#4, .scanRawNe), (0x1#4, 0xF#4, .scanRawNeFull), (0x2#4, 0xE#4, .scanRawEq), (0x4#4, 0xE#4, .scanRepNe)]
  ++ [(0x6#4, 0xF#4, .scanRepEq), (0x7#4, 0xF#4, .scanRepEqSat), (0x8#4, 0xC#4, .finRaw), (0xC#4, 0xC#4, .finRep)]

/-- The instructions whose row of the selector table matches `sel`. -/
def selectorMatches (sel : BitVec 4) : List Instr :=
  (selectorRows.filter fun r => sel &&& r.2.1 == r.1).map fun r => r.2.2

/-- How many zero bytes stand for the operand bytes of a table word: the longest packet has 129 bytes (R54). -/
def tablePadding : Nat := 128

/-- The code a table word of `nbits` bits is read as. The three formats of the table share their bit patterns, and a row's
width rounded up to bytes no longer tells them apart. A width of at most 2 bits is a command word, of at most 4 a
selector. A whole byte whose high nibble is 0 is read as a selector, the code the CORE forms at every step (R60), and any
other byte as the control byte of a packet followed by zero bytes. DESIGN CHOICE, log 14. -/
def tableCode (nbits w : Nat) : Code :=
  if nbits ≤ 2 then .command (BitVec.ofNat 2 w)
  else if nbits ≤ 4 then .selector (BitVec.ofNat 4 w)
  else if w < 16 then .selector (BitVec.ofNat 4 w)
  else .packet (BitVec.ofNat 8 w :: List.replicate tablePadding 0#8)

/-- The instruction read from a table word. -/
def decodeTableWord (nbits w : Nat) : Option Instr :=
  match decode (tableCode nbits w) with
  | .ok (i, _) => some i
  | .error _ => none

end Sys2Proof
end

