-- ==== Sys2Proof/Machine/Packets.lean ====
section
/-! DEFINITION. What packets mean (40_packets.md R69 to R71): the meaning of each form for the reader of the output, and
Expand of a whole byte sequence. -/

namespace Sys2Proof.Machine

/-- The reader takes the meaning of a packet: it is appended, in order. Once Expand has raised its fault it reads no
further, and the fault is its result (R71; log 6). -/
def State.accept (s : State) (bytes : List Byte) : State :=
  match s.reader.fault with
  | none => { s with reader := { s.reader with expanded := s.reader.expanded ++ bytes } }
  | some _ => s

/-- Expand raises its fault (R71); the first one is the result. -/
def State.expandRaise (s : State) (f : ExpandFault) : State :=
  match s.reader.fault with
  | none => { s with reader := { s.reader with fault := some f } }
  | some _ => s

/-- PKT_RAW (R69): the meaning is the literals, in packet order. -/
def execPktRaw (lits : List Byte) (s : State) : Outcome := .next (s.accept lits)

/-- PKT_REPEAT (R70): the meaning is `257 - c` copies of the value. -/
def execPktRepeat (m : BitVec 7) (v : Byte) (s : State) : Outcome := .next (s.accept (List.replicate (repeatCount m) v))

/-- PKT_RESERVED_0x80 (R57, R71): Expand raises RESERVED_CONTROL. -/
def execPktReserved (s : State) : Outcome := .next (s.expandRaise .reservedControl)

/-- `Expand` (R71), with as much fuel as there are bytes: every packet takes at least one. -/
def expandFuel : Nat → List Byte → Except ExpandFault (List Byte)
  | _, [] => .ok []
  | 0, _ :: _ => .ok []
  | k + 1, c :: rest =>
    if c.msb = false then
      let n := (c.extractLsb' 0 7).toNat
      if rest.length < n + 1 then .error .truncated
      else (expandFuel k (rest.drop (n + 1))).map (rest.take (n + 1) ++ ·)
    else if c = 0x80#8 then .error .reservedControl
    else
      match rest with
      | [] => .error .truncated
      | v :: rest' => (expandFuel k rest').map (List.replicate (257 - c.toNat) v ++ ·)

/-- `Expand(s)` (R71): the meaning of a whole byte sequence, "bytes or fault". -/
def expand (bytes : List Byte) : Except ExpandFault (List Byte) := expandFuel bytes.length bytes

/-- The reader takes its next packet from the stream (R71: left to right): at the end of the stream, or after its fault,
it does nothing; a packet cut short is TRUNCATED; else it moves past the packet and takes its meaning. Where the stream
stands after a fault is DESIGN CHOICE, log 20: past the reserved byte, and before a packet cut short. -/
def State.nextPacket (s : State) : Except State (Instr × State) :=
  match s.reader.fault with
  | some _ => .error s
  | none =>
    match decodePacket s.reader.stream with
    | .error .emptyStream => .error s
    | .error .truncated => .error (s.expandRaise .truncated)
    | .ok (i, rest) => .ok (i, { s with reader := { s.reader with stream := rest } })

/-- What Expand in progress amounts to: its fault, or the bytes so far. -/
def Reader.result (r : Reader) : Except ExpandFault (List Byte) :=
  match r.fault with
  | some f => .error f
  | none => .ok r.expanded

end Sys2Proof.Machine
end

