-- ==== Sys2Proof/Machine/Scan.lean ====
section
/-! DEFINITION. The scan transitions (41_scan.md R79 to R84), each one atomic step. -/

namespace Sys2Proof.Machine

/-- SCAN_RAW_EQ (R79): flush, switch to REPEAT, count the current byte as the first of the pair. -/
def execScanRawEq (s : State) : Outcome :=
  s.coreStep (s.orOverflow s.flushRaw fun t => { t with mode := .rep, rc := 1#8, pos := t.pos + 1 })

/-- SCAN_RAW_NE (R80): append the current byte. -/
def execScanRawNe (s : State) : Outcome :=
  s.coreStep (s.withCursorByte fun b => .next { s.append b with pos := s.pos + 1 })

/-- SCAN_RAW_NE_FULL (R81): flush the full buffer, then the current byte starts a fresh one. -/
def execScanRawNeFull (s : State) : Outcome :=
  s.coreStep (s.withCursorByte fun b => s.orOverflow s.flushRaw fun t =>
    { t with buf := t.buf.write 0 b, blen := 1#8, pos := t.pos + 1 })

/-- SCAN_REP_EQ (R82): count one more. -/
def execScanRepEq (s : State) : Outcome :=
  s.coreStep (.next { s with rc := s.rc + 1#8, pos := s.pos + 1 })

/-- SCAN_REP_EQ_SAT (R83): emit the 127 pending copies, reset RC to 0, then count the current byte. -/
def execScanRepEqSat (s : State) : Outcome :=
  s.coreStep (s.withCursorByte fun v => s.orOverflow (s.emitRepeat 127 v) fun t =>
    { t with rc := 0#8 + 1#8, pos := t.pos + 1 })

/-- SCAN_REP_NE (R84): count the current byte, emit, switch to RAW, reset RC to 0. -/
def execScanRepNe (s : State) : Outcome :=
  s.coreStep (s.withCursorByte fun v => s.orOverflow (s.emitRepeat (s.rc.toNat + 1) v) fun t =>
    { t with mode := .raw, rc := 0#8, pos := t.pos + 1 })

end Sys2Proof.Machine
end

