-- ==== Sys2Proof/Machine/Dispatch.lean ====
section
/-! DEFINITION. The meaning of each instruction, one arm per row of the opcode table. -/

namespace Sys2Proof.Machine

def exec (i : Instr) (s : State) : Host.Outcome State Fault Refusal :=
  match i with
  | .pktRaw _ lits => Sys2Proof.Machine.execPktRaw lits s
  | .pktRepeat m v => Sys2Proof.Machine.execPktRepeat m v s
  | .pktReserved => Sys2Proof.Machine.execPktReserved s
  | .scanRawNe => Sys2Proof.Machine.execScanRawNe s
  | .scanRawNeFull => Sys2Proof.Machine.execScanRawNeFull s
  | .scanRawEq => Sys2Proof.Machine.execScanRawEq s
  | .scanRepNe => Sys2Proof.Machine.execScanRepNe s
  | .scanRepEq => Sys2Proof.Machine.execScanRepEq s
  | .scanRepEqSat => Sys2Proof.Machine.execScanRepEqSat s
  | .finRaw => Sys2Proof.Machine.execFinRaw s
  | .finRep => Sys2Proof.Machine.execFinRep s
  | .nop => Sys2Proof.Machine.execNop s
  | .start => Sys2Proof.Machine.execStart s
  | .cmdReserved => Sys2Proof.Machine.execCmdReserved s
  | .reset => Sys2Proof.Machine.execReset s

end Sys2Proof.Machine
end

