-- ==== Sys2Proof/Machine/Turn.lean ====
section
/-! DEFINITION. Whose turn it is and what it does: the CORE's step (41_scan.md R78), the host's moves (30_encoding.md R67,
60_exceptions.md R119, R122), their interleaving (R121), and how an instruction is put where the next turn runs it. -/

namespace Sys2Proof.Machine

/-- The CORE's step (R78): the check, then the selector of the state before the step, then its transition. -/
def State.coreTurn (s : State) : Outcome :=
  if s.invariantsHold then
    match s.selector? with
    | some sel => exec (decodeSelector sel) s
    | none => .fault .imemAddress
  else .next (s.raise .invariant)

/-- A value handed back to the host (R119, "host gets back"). -/
def State.receive (s : State) (v : Nat) : State := { s with received := v :: s.received }

/-- `W r, v` (R67): a write of CTRL is a command (R63); LEN takes the value, in its `P_CNT_WIDTH` bits; writes of STATUS and
OLEN are ignored (R65). -/
def State.writeReg (s : State) (r : IReg) (v : Nat) : Outcome :=
  match r with
  | .ctrl => exec (decodeCommand (BitVec.ofNat 2 v)) s
  | .len => .next { s with lenReg := v % 2 ^ s.cfg.pCntWidth }
  | .status => .next s
  | .olen => .next s

/-- A host action at its turn. IMEM may be written only while PHASE = IDLE (R119, R126; log 8), OMEM and OLEN read only when
no run is in progress or it has faulted (R48, R106; log 7). -/
def State.hostAct (s : State) (act : HostAct) : Outcome :=
  match act with
  | .writeImem a b =>
    if s.phase = .run then .refused .imemWriteInRun
    else if a < s.cfg.pMaxLen then .next { s with imem := s.imem.write a b }
    else .fault .imemAddress
  | .writeReg r v => s.writeReg r v
  | .readReg r =>
    if r = .olen ∧ s.outputUnsettled = true then .refused .outputReadInRun else .next (s.receive (s.regValue r))
  | .readOmem a =>
    if s.outputUnsettled then .refused .outputReadInRun
    else if a < s.cfg.pOmemSize then .next (s.receive (s.omemByte a).toNat)
    else .fault .omemAddress
  | .wait => .next (s.receive (s.regValue .status))
  | .powerOn => .next s.performReset
  | .collect =>
    if s.outputUnsettled then .refused .outputReadInRun
    else .next { s with reader := { stream := s.output, expanded := [], fault := none } }
  | .feed bytes => .next { s with reader := { stream := bytes, expanded := [], fault := none } }
  | .readPacket =>
    match s.nextPacket with
    | .ok (i, t) => exec i t
    | .error t => .next t

/-- The host waits at a WAIT that DONE or FAULT has not ended (R67, R119). -/
def State.waiting (s : State) (act : HostAct) : Bool := decide (act = .wait) && !s.done && !s.fault

/-- One atomic action of the machine (R121). The CORE steps where the host's next move still lets it, or waits; else the host
makes that move. With no move pending the CORE steps if it can; an idle CORE waits for START (R125), a faulted one is stuck
(R106). -/
def State.turn (s : State) : Outcome :=
  match s.script with
  | [] => if s.coreEnabled then s.coreTurn else if s.fault then .fault .stuck else .next s
  | m :: rest =>
    if s.coreEnabled && decide (0 < m.after) then
      State.coreTurn { s with script := { m with after := m.after - 1 } :: rest }
    else if s.waiting m.act then (if s.coreEnabled then s.coreTurn else .next s)
    else State.hostAct { s with script := rest } m.act

/-- Put the CORE on a byte of a chunk where its selector has the given MODE, FIN, EQ and SAT (EQ only where FIN = 0), with
nothing pending for the host: the cursor at 127, so that any BLEN or RC up to 127 passes the check of R62. -/
def State.stageCore (s : State) (mode : Mode) (fin eq sat : Bool) : State :=
  let pending : BitVec 8 := if sat then 127#8 else match mode with | .raw => 0#8 | .rep => 1#8
  { s with
    cfg := { s.cfg with pMaxLen := max s.cfg.pMaxLen 129, pCntWidth := max s.cfg.pCntWidth 9 }
    phase := .run, done := false, fault := false, fcode := .none, mode := mode
    rc := match mode with | .raw => 0#8 | .rep => pending
    blen := match mode with | .raw => pending | .rep => 0#8
    pos := 127
    chunkLen := if fin then 128 else 129
    imem := (s.imem.write 127 0#8).write 128 (if eq then 0#8 else 1#8)
    script := [] }

/-- Put a command where the host writes it next. -/
def State.stageCommand (s : State) (cmd : BitVec 2) : State :=
  { s with script := { after := 0, act := .writeReg .ctrl cmd.toNat } :: s.script }

/-- Put a byte stream where the reader reads its next packet. -/
def State.stagePacket (s : State) (bytes : List Byte) : State :=
  { s with
    reader := { s.reader with stream := bytes, fault := none }
    script := { after := 0, act := .readPacket } :: s.script }

/-- Put a code where the next turn runs its instruction (log 14). -/
def State.stage (s : State) (code : Code) : State :=
  match code with
  | .packet bytes => s.stagePacket bytes
  | .command cmd => s.stageCommand cmd
  | .selector sel =>
    s.stageCore (if sel.getLsbD 2 then .rep else .raw) (sel.getLsbD 3) (sel.getLsbD 1) (sel.getLsbD 0)

/-- The host's lines of `LOAD [b0, ..., bk]` (R67) from IMEM address `a` on. -/
def loadFrom : Nat → List Byte → List HostMove
  | _, [] => []
  | a, b :: bs => { after := 0, act := .writeImem a b } :: loadFrom (a + 1) bs

/-- The host's lines of `ENCODE [b0, ..., bk]` (R67): LOAD, LEN, START, WAIT. -/
def encodeMoves (bytes : List Byte) : List HostMove :=
  loadFrom 0 bytes ++
    [{ after := 0, act := .writeReg .len bytes.length }, { after := 0, act := .writeReg .ctrl 1 },
      { after := 0, act := .wait }]

end Sys2Proof.Machine
end

