-- ==== Sys2Proof/Machine/Step.lean ====
section
/-! DEFINITION. The step, and where it fetches: one atomic action (60_exceptions.md R121). -/

namespace Sys2Proof.Machine

/-- One step of the machine. -/
def step (s : State) : Host.Outcome State Fault Refusal := s.turn

/-- `s` with the instruction of a table word placed where the next step runs it (log 14). -/
def State.withFetchWord (s : State) (nbits w : Nat) : State := s.stage (tableCode nbits w)

end Sys2Proof.Machine
end

