-- ==== Sys2Proof/Safety.lean ====
section
/-! DEFINITION. The terms claims are stated in: the invariants of every reachable state (10_state.md R28 to R30), the legal
ranges of the registers, the document's function `encode` (41_scan.md R85) and the laws of its output (40_packets.md R75,
R76), and the frames of the machine's actions. -/

namespace Sys2Proof.Machine

/-! ## Invariants -/

/-- The stores keep their canonical form and list only addresses that exist (R17, R36, R39). -/
abbrev State.memInv (s : State) : Prop :=
  s.imem.wf ∧ s.omem.wf ∧ s.buf.wf ∧
    (∀ c ∈ s.imem, c.1 < s.cfg.pMaxLen) ∧ (∀ c ∈ s.omem, c.1 < s.cfg.pOmemSize) ∧ (∀ c ∈ s.buf, c.1 < 128)

/-- The counters stay in the legal ranges of R16, R18 to R21 and R31, so that none leaves its register's width (R8). -/
abbrev State.rangeInv (s : State) : Prop :=
  s.rc.toNat ≤ 128 ∧ s.blen.toNat ≤ 128 ∧ s.pos < s.cfg.pMaxLen ∧ s.chunkLen ≤ s.cfg.pMaxLen ∧
    s.olen ≤ s.cfg.pOmemSize ∧ s.olen ≤ 2 * s.chunkLen ∧ s.lenReg < 2 ^ s.cfg.pCntWidth

/-- DONE = 1 only between runs (R22, R32), and FCODE is 0 exactly when FAULT is (R23, U6). -/
abbrev State.bitInv (s : State) : Prop :=
  (s.done = true → s.phase = .idle) ∧ (s.fault = false ↔ s.fcode = .none)

/-- The invariant in RAW (R28). -/
abbrev State.rawInv (s : State) : Prop :=
  s.rc = 0#8 ∧ s.blen.toNat ≤ 127 ∧ s.pos < s.chunkLen ∧ s.blen.toNat ≤ s.pos ∧
    (∀ i < s.blen.toNat, s.bufByte i = s.imemByte (s.pos - s.blen.toNat + i)) ∧
    (1 ≤ s.pos → s.imemByte (s.pos - 1) ≠ s.imemByte s.pos) ∧
    (∀ i < s.blen.toNat - 1, s.bufByte i ≠ s.bufByte (i + 1))

/-- The invariant in REPEAT (R29). -/
abbrev State.repInv (s : State) : Prop :=
  s.blen = 0#8 ∧ 1 ≤ s.rc.toNat ∧ s.rc.toNat ≤ 127 ∧ s.rc.toNat ≤ s.pos ∧ s.pos < s.chunkLen ∧
    (∀ i < s.rc.toNat, s.imemByte (s.pos - s.rc.toNat + i) = s.imemByte s.pos)

/-- The input bytes read but not yet written (R11, R30). -/
def State.pending (s : State) : List Byte :=
  match s.mode with
  | .raw => s.bufBytes
  | .rep => List.replicate s.rc.toNat (s.imemByte s.pos)

/-- The progress invariant (R30): what the output means, and then the pending bytes, is the input before the cursor. -/
def State.progressInv (s : State) : Prop :=
  ∃ written, expand s.output = .ok written ∧ written ++ s.pending = s.input s.pos

/-- Everything the spec says of a state at rest in a run (R28 to R30), and the step-wise form of the output bound (R98). -/
def State.runInv (s : State) : Prop :=
  (s.mode = .raw → s.rawInv) ∧ (s.mode = .rep → s.repInv) ∧ s.progressInv ∧
    s.olen + 2 * s.pending.length ≤ 2 * s.pos

/-- The invariant of every reachable state. -/
def State.Inv (s : State) : Prop :=
  s.cfg.wf ∧ s.memInv ∧ s.rangeInv ∧ s.bitInv ∧ (s.phase = .run → s.runInv)

/-! ## The three families of instructions -/

/-- The packet forms of the output (R54, R55, R57). -/
def isPacket : Instr → Bool
  | .pktRaw _ _ => true
  | .pktRepeat _ _ => true
  | .pktReserved => true
  | .scanRawNe => false
  | .scanRawNeFull => false
  | .scanRawEq => false
  | .scanRepNe => false
  | .scanRepEq => false
  | .scanRepEqSat => false
  | .finRaw => false
  | .finRep => false
  | .nop => false
  | .start => false
  | .cmdReserved => false
  | .reset => false

/-- The transitions of the CORE (R61). -/
def isTransition : Instr → Bool
  | .pktRaw _ _ => false
  | .pktRepeat _ _ => false
  | .pktReserved => false
  | .scanRawNe => true
  | .scanRawNeFull => true
  | .scanRawEq => true
  | .scanRepNe => true
  | .scanRepEq => true
  | .scanRepEqSat => true
  | .finRaw => true
  | .finRep => true
  | .nop => false
  | .start => false
  | .cmdReserved => false
  | .reset => false

/-- The host commands (R63). -/
def isCommand : Instr → Bool
  | .pktRaw _ _ => false
  | .pktRepeat _ _ => false
  | .pktReserved => false
  | .scanRawNe => false
  | .scanRawNeFull => false
  | .scanRawEq => false
  | .scanRepNe => false
  | .scanRepEq => false
  | .scanRepEqSat => false
  | .finRaw => false
  | .finRep => false
  | .nop => true
  | .start => true
  | .cmdReserved => true
  | .reset => true

/-- `s` with the fields that a CORE transition never looks at replaced: the interface register LEN, the host's script and
received values, and the reader (R127, R122). -/
def State.withHostSide (s : State) (lenReg : Nat) (script : List HostMove) (received : List Nat) (reader : Reader) :
    State :=
  { s with lenReg := lenReg, script := script, received := received, reader := reader }

/-- The same outcome with another host side, where there is a next state. -/
def Outcome.withHostSide (o : Outcome) (lenReg : Nat) (script : List HostMove) (received : List Nat) (reader : Reader) :
    Outcome :=
  match o with
  | .next t => .next (t.withHostSide lenReg script received reader)
  | .fault f => .fault f
  | .refused r => .refused r

/-! ## When a CORE transition runs -/

/-- The CORE has a step and passes the check of R62 (R78), on a chunk that IMEM holds (R20). -/
abbrev State.coreReady (s : State) : Prop :=
  s.phase = .run ∧ s.fault = false ∧ s.invariantsHold = true ∧ s.chunkLen ≤ s.cfg.pMaxLen

/-- A packet of `n` bytes fits in OMEM (R92). -/
abbrev State.fits (s : State) (n : Nat) : Prop := s.olen + n ≤ s.cfg.pOmemSize

/-- `t` holds `bytes` appended to the output of `s`, and every other byte of OMEM as before: OMEM written at OLEN and
upwards only (R40, R41, R91). -/
def Appended (s t : State) (bytes : List Byte) : Prop :=
  t.olen = s.olen + bytes.length ∧ t.output = s.output ++ bytes ∧
    ∀ a, ¬ (s.olen ≤ a ∧ a < s.olen + bytes.length) → t.omemByte a = s.omemByte a

/-- What no CORE transition writes: the parameters, L, FAULT, FCODE, the interface register LEN, every byte of IMEM, and
whatever is not the block's (R20, R23, R34, R36, R105). -/
def CoreFrame (s t : State) : Prop :=
  t.cfg = s.cfg ∧ t.chunkLen = s.chunkLen ∧ t.fault = s.fault ∧ t.fcode = s.fcode ∧ t.lenReg = s.lenReg ∧
    t.imem = s.imem ∧ (∀ a, t.imemByte a = s.imemByte a) ∧ t.epoch = s.epoch ∧ t.script = s.script ∧
    t.received = s.received ∧ t.reader = s.reader

/-- What a packet of the output stream leaves alone: everything but the reader. -/
def ReaderOnly (s t : State) : Prop := t = { s with reader := t.reader }

/-! ## The document's function -/

/-- The bytes of a raw packet that carries `lits`, nothing if there are none (R54, R94). -/
def rawBytes (lits : List Byte) : List Byte :=
  if lits = [] then [] else BitVec.ofNat 8 (lits.length - 1) :: lits

/-- The bytes of a repeat packet of `k` copies of `v` (R55): control byte `257 - k`. -/
def repBytes (k : Nat) (v : Byte) : List Byte := [BitVec.ofNat 8 (257 - k), v]

/-- The document's scan from a mode, a repeat count and a buffer over the bytes from the cursor on (R79 to R84, R87, R88),
with the saturation tests before the act (90_conflicts.md C1). It shares no operation with the machine. -/
def encodeFrom : Mode → Nat → List Byte → List Byte → List Byte
  | _, _, _, [] => []
  | .raw, _, buf, [x] => rawBytes (buf ++ [x])
  | .rep, rc, _, [x] => repBytes (rc + 1) x
  | .raw, _, buf, x :: y :: rest =>
    if x = y then rawBytes buf ++ encodeFrom .rep 1 [] (y :: rest)
    else if buf.length = 127 then rawBytes buf ++ encodeFrom .raw 0 [x] (y :: rest)
    else encodeFrom .raw 0 (buf ++ [x]) (y :: rest)
  | .rep, rc, _, x :: y :: rest =>
    if x = y then
      if rc = 127 then repBytes 127 x ++ encodeFrom .rep 1 [] (y :: rest)
      else encodeFrom .rep (rc + 1) [] (y :: rest)
    else repBytes (rc + 1) x ++ encodeFrom .raw 0 [] (y :: rest)

/-- `encode(s)` (R2, R85): the scan from RAW with an empty buffer. -/
def encodeChunk (input : List Byte) : List Byte := encodeFrom .raw 0 [] input

/-- A byte sequence as its longest intervals of consecutive equal bytes (R75), each a value and a length. -/
def runsOf : List Byte → List (Byte × Nat)
  | [] => []
  | x :: xs =>
    match runsOf xs with
    | [] => [(x, 1)]
    | (y, k) :: rest => if x = y then (y, k + 1) :: rest else (x, 1) :: (y, k) :: rest

/-- The packets of a maximal run of `k >= 2` bytes (R75): `q` of 127 copies, then one of `k - 127 q`, with
`q = (k - 2) / 127`. -/
def runPackets (v : Byte) (k : Nat) : List Byte :=
  let q := (k - 2) / 127
  (List.replicate q (repBytes 127 v)).flatten ++ repBytes (k - 127 * q) v

/-- `q` raw packets of 127 literals each, then one of the rest. -/
def literalPackets : Nat → List Byte → List Byte
  | 0, lits => rawBytes lits
  | q + 1, lits => rawBytes (lits.take 127) ++ literalPackets q (lits.drop 127)

/-- The packets of a literal segment of `m` bytes (R76): `q = (m - 1) / 127` if a run follows, and at the end of the chunk
`q = (m - 2) / 127` (0 for `m = 1`). -/
def segmentPackets (atEnd : Bool) (lits : List Byte) : List Byte :=
  literalPackets ((lits.length - (if atEnd then 2 else 1)) / 127) lits

/-- The output that the run law and the literal law give (R75, R76): a run of length 1 is a literal, literals between
runs are one segment, a longer run is its packets. -/
def lawOutput : List Byte → List (Byte × Nat) → List Byte
  | lits, [] => segmentPackets true lits
  | lits, (v, k) :: rest =>
    if k = 1 then lawOutput (lits ++ [v]) rest
    else segmentPackets false lits ++ runPackets v k ++ lawOutput [] rest

/-! ## Packets the CORE may write -/

/-- A raw packet of 1 to 128 literals, or a repeat packet of 2 to 128 copies (R73), as instructions. -/
def boundedPacket : Instr → Bool
  | .pktRaw n lits => decide (lits.length = n.toNat + 1)
  | .pktRepeat m _ => decide (2 ≤ repeatCount m ∧ repeatCount m ≤ 128)
  | .pktReserved => false
  | .scanRawNe => false
  | .scanRawNeFull => false
  | .scanRawEq => false
  | .scanRepNe => false
  | .scanRepEq => false
  | .scanRepEqSat => false
  | .finRaw => false
  | .finRep => false
  | .nop => false
  | .start => false
  | .cmdReserved => false
  | .reset => false

/-- The bytes are a series of whole packets, each within the bounds of R73. -/
def WholePackets (bytes : List Byte) : Prop :=
  ∃ packets : List Instr, (∀ i ∈ packets, boundedPacket i = true) ∧ bytes = (packets.map packetBytes).flatten

end Sys2Proof.Machine
end

