-- ==== Sys2Proof/Certificates/Slice0/Obligations.lean ====
section
/-! DEFINITION. The statements for the provers, each about the model of Sys2Proof/Machine and each with the rule of spec/ it
rests on. -/

open Sys2Proof Sys2Proof.Machine

/-! ## Encoding and decoding -/

/-- Words written out from R54, R55, R57, R61 and R63 decode to the instruction they stand for. The reserved packet is its one
byte, as the opcode table has it; R58 leaves its length undefined (log 20). -/
def Obligations.SpecWordsDecode : Prop :=
  decode (.packet [0x02#8, 1#8, 2#8, 3#8]) = .ok (.pktRaw 2#7 [1#8, 2#8, 3#8], []) ∧
  decode (.packet [0xFD#8, 0x05#8]) = .ok (.pktRepeat 0x7D#7 0x05#8, []) ∧
  decode (.packet [0x80#8, 0x05#8]) = .ok (.pktReserved, [0x05#8]) ∧
  decode (.selector 0b0111#4) = .ok (.scanRepEqSat, []) ∧ decode (.selector 0b1001#4) = .ok (.finRaw, []) ∧
  decode (.command 0b01#2) = .ok (.start, []) ∧ decode (.command 0b11#2) = .ok (.reset, [])

/-- R61: every selector value matches exactly one row of the table, and it is the one the decoder gives. -/
def Obligations.SelectorTableIsTotalAndDisjoint : Prop :=
  ∀ sel : BitVec 4, selectorMatches sel = [decodeSelector sel]

/-- Decoding the code of a well-formed instruction gives it back, a packet also in front of further bytes. -/
def Obligations.DecodeOfEncodeIsTheInstruction : Prop :=
  ∀ (i : Instr) (rest : List Byte), i.wellFormed = true →
    match encode i with
    | .packet bytes => decode (.packet (bytes ++ rest)) = .ok (i, rest)
    | .selector sel => decode (.selector sel) = .ok (i, [])
    | .command cmd => decode (.command cmd) = .ok (i, [])

/-- A packet that decodes is well formed, and its encoding is the bytes it was read from: each packet has one spelling. -/
def Obligations.EncodeOfDecodedPacketIsItsBytes : Prop :=
  ∀ (bytes rest : List Byte) (i : Instr), decodePacket bytes = .ok (i, rest) →
    i.wellFormed = true ∧ isPacket i = true ∧ bytes = packetBytes i ++ rest

/-- R58: the length of a packet follows from its first byte; the reserved byte has none (log 20), and a packet whose stated length
runs past the end is rejected. -/
def Obligations.PacketLengthFromFirstByte : Prop :=
  (∀ c : Byte, packetLength c =
    if c.getLsbD 7 = false then some (c.toNat + 2) else if c = 0x80#8 then none else some 2) ∧
  (∀ (c : Byte) (rest : List Byte) (n : Nat), packetLength c = some n →
    (rest.length + 1 < n → decodePacket (c :: rest) = .error .truncated) ∧
    (n ≤ rest.length + 1 → ∃ i, decodePacket (c :: rest) = .ok (i, (c :: rest).drop n)))

/-! ## The meaning of packets -/

/-- R69: a raw packet's meaning, its literals in packet order, is appended to what the reader has expanded; nothing else
changes. Once Expand has faulted, the packet changes nothing (log 6). -/
def Obligations.PktRawMeansItsLiterals : Prop :=
  ∀ (n : BitVec 7) (lits : List Byte) (s : State), ∃ t, exec (.pktRaw n lits) s = .next t ∧ ReaderOnly s t ∧
    t.reader.stream = s.reader.stream ∧ t.reader.fault = s.reader.fault ∧
    (s.reader.fault = none → t.reader.expanded = s.reader.expanded ++ lits) ∧
    (∀ f, s.reader.fault = some f → t = s)

/-- R70: a repeat packet with control byte `c = 128 + m` means `257 - c` copies of its value, 2 to 128 for `m /= 0`. Once
Expand has faulted, the packet changes nothing (log 6). -/
def Obligations.PktRepeatMeansItsCopies : Prop :=
  ∀ (m : BitVec 7) (v : Byte) (s : State), ∃ t, exec (.pktRepeat m v) s = .next t ∧ ReaderOnly s t ∧
    t.reader.stream = s.reader.stream ∧ t.reader.fault = s.reader.fault ∧
    (s.reader.fault = none →
      t.reader.expanded = s.reader.expanded ++ List.replicate (257 - (128 + m.toNat)) v) ∧
    (∀ f, s.reader.fault = some f → t = s)

/-- R57: control byte 0x80 makes Expand fault RESERVED_CONTROL, and no CORE fault. -/
def Obligations.ReservedControlFaultsExpandOnly : Prop :=
  ∀ s : State, ∃ t, exec .pktReserved s = .next t ∧ ReaderOnly s t ∧
    t.reader.stream = s.reader.stream ∧ t.reader.expanded = s.reader.expanded ∧
    (s.reader.fault = none → t.reader.result = .error .reservedControl) ∧
    (∀ f, s.reader.fault = some f → t = s ∧ t.reader.result = .error f)

/-- R71, clause by clause, without the definition's fuel. -/
def Obligations.ExpandClauses : Prop :=
  expand [] = .ok [] ∧
  (∀ (n : BitVec 7) (rest : List Byte), rest.length < n.toNat + 1 →
    expand ((0#1 ++ n : BitVec 8) :: rest) = .error .truncated) ∧
  (∀ (n : BitVec 7) (rest : List Byte), n.toNat + 1 ≤ rest.length →
    expand ((0#1 ++ n : BitVec 8) :: rest) =
      (expand (rest.drop (n.toNat + 1))).map (rest.take (n.toNat + 1) ++ ·)) ∧
  (∀ rest : List Byte, expand (0x80#8 :: rest) = .error .reservedControl) ∧
  (∀ c : Byte, 0x80 < c.toNat → expand [c] = .error .truncated) ∧
  (∀ (c v : Byte) (rest : List Byte), 0x80 < c.toNat →
    expand (c :: v :: rest) = (expand rest).map (List.replicate (257 - c.toNat) v ++ ·))

/-- The reader, reading packet by packet, arrives at Expand of the whole byte sequence (R71). The reader is the model's own
form of Expand (log 5). -/
def Obligations.ReaderComputesExpand : Prop :=
  ∀ (s : State) (bytes : List Byte), ∃ t,
    core.run bytes.length
      { s with
        reader := { stream := bytes, expanded := [], fault := none }
        script := List.replicate bytes.length { after := 0, act := .readPacket } } = .next t ∧
    t.reader.result = expand bytes

/-! ## The CORE's transitions -/

/-- R79: SCAN_RAW_EQ. -/
def Obligations.ScanRawEqFlushesAndCounts : Prop :=
  (∀ s : State, s.coreReady → (s.blen ≠ 0#8 → s.fits (s.blen.toNat + 1)) →
    ∃ t, exec .scanRawEq s = .next t ∧ Appended s t (rawBytes s.bufBytes) ∧ CoreFrame s t ∧
      t.mode = .rep ∧ t.rc = 1#8 ∧ t.blen = 0#8 ∧ t.pos = s.pos + 1 ∧ t.buf = s.buf ∧ t.phase = s.phase ∧ t.done = s.done) ∧
  (∀ s : State, s.coreReady → s.blen ≠ 0#8 → ¬ s.fits (s.blen.toNat + 1) →
    exec .scanRawEq s = .next { s with fault := true, fcode := .outOverflow }) ∧
  (∀ s : State, s.phase = .run → s.fault = false → s.invariantsHold = false →
    exec .scanRawEq s = .next { s with fault := true, fcode := .invariant }) ∧
  (∀ sat : Bool, decodeSelector (0b001#3 ++ BitVec.ofBool sat) = .scanRawEq)

/-- R80: SCAN_RAW_NE; from a reachable state its selector means that the appended byte differs from the next one, and no two
adjacent literals are equal after it. -/
def Obligations.ScanRawNeAppendsTheCursorByte : Prop :=
  (∀ s : State, s.coreReady → s.mode = .raw → s.blen.toNat ≤ 126 →
    ∃ t, exec .scanRawNe s = .next t ∧ Appended s t [] ∧ CoreFrame s t ∧
      (∀ i, t.bufByte i = if i = s.blen.toNat then s.imemByte s.pos else s.bufByte i) ∧
      t.blen.toNat = s.blen.toNat + 1 ∧ t.pos = s.pos + 1 ∧ t.mode = s.mode ∧ t.rc = s.rc ∧ t.phase = s.phase ∧
      t.done = s.done) ∧
  (∀ s : State, s.phase = .run → s.fault = false → s.invariantsHold = false →
    exec .scanRawNe s = .next { s with fault := true, fcode := .invariant }) ∧
  (∀ s t : State, s.Inv → s.coreReady → s.selector? = some 0b0000#4 → exec .scanRawNe s = .next t →
    s.imemByte s.pos ≠ s.imemByte (s.pos + 1) ∧ ∀ i, i + 1 < t.blen.toNat → t.bufByte i ≠ t.bufByte (i + 1)) ∧
  decodeSelector 0b0000#4 = .scanRawNe

/-- R81: SCAN_RAW_NE_FULL; a packet of 128 literals, 129 bytes, is left to FIN_RAW. -/
def Obligations.ScanRawNeFullFlushesThenAppends : Prop :=
  (∀ s : State, s.coreReady → s.mode = .raw → s.blen = 127#8 → s.fits 128 →
    ∃ t, exec .scanRawNeFull s = .next t ∧ Appended s t (0x7E#8 :: s.bufBytes) ∧ CoreFrame s t ∧
      (∀ i, t.bufByte i = if i = 0 then s.imemByte s.pos else s.bufByte i) ∧
      t.blen = 1#8 ∧ t.pos = s.pos + 1 ∧ t.mode = s.mode ∧ t.rc = s.rc ∧ t.phase = s.phase ∧ t.done = s.done) ∧
  (∀ s : State, s.coreReady → s.mode = .raw → s.blen = 127#8 → ¬ s.fits 128 →
    exec .scanRawNeFull s = .next { s with fault := true, fcode := .outOverflow }) ∧
  (∀ s : State, s.phase = .run → s.fault = false → s.invariantsHold = false →
    exec .scanRawNeFull s = .next { s with fault := true, fcode := .invariant }) ∧
  (∀ (i : Instr) (s t : State), isTransition i = true → s.coreReady → exec i s = .next t → s.olen + 129 ≤ t.olen →
    i = .finRaw) ∧
  decodeSelector 0b0001#4 = .scanRawNeFull

/-- R82: SCAN_REP_EQ. -/
def Obligations.ScanRepEqCountsOneMore : Prop :=
  (∀ s : State, s.coreReady → s.mode = .rep → s.rc.toNat ≤ 126 →
    ∃ t, exec .scanRepEq s = .next t ∧ Appended s t [] ∧ CoreFrame s t ∧
      t.rc.toNat = s.rc.toNat + 1 ∧ t.pos = s.pos + 1 ∧ t.mode = s.mode ∧ t.buf = s.buf ∧ t.blen = s.blen ∧
      t.phase = s.phase ∧ t.done = s.done) ∧
  (∀ s : State, s.phase = .run → s.fault = false → s.invariantsHold = false →
    exec .scanRepEq s = .next { s with fault := true, fcode := .invariant }) ∧
  decodeSelector 0b0110#4 = .scanRepEq

/-- R83: SCAN_REP_EQ_SAT; in a reachable state the value written equals each of the 127 bytes the packet stands for. -/
def Obligations.ScanRepEqSatEmits127Copies : Prop :=
  (∀ s : State, s.coreReady → s.mode = .rep → s.rc = 127#8 → s.fits 2 →
    ∃ t, exec .scanRepEqSat s = .next t ∧ Appended s t [0x82#8, s.imemByte s.pos] ∧ CoreFrame s t ∧
      t.rc = 1#8 ∧ t.pos = s.pos + 1 ∧ t.mode = s.mode ∧ t.buf = s.buf ∧ t.blen = s.blen ∧ t.phase = s.phase ∧
      t.done = s.done) ∧
  (∀ s : State, s.coreReady → s.mode = .rep → s.rc = 127#8 → ¬ s.fits 2 →
    exec .scanRepEqSat s = .next { s with fault := true, fcode := .outOverflow }) ∧
  (∀ s : State, s.phase = .run → s.fault = false → s.invariantsHold = false →
    exec .scanRepEqSat s = .next { s with fault := true, fcode := .invariant }) ∧
  (∀ s : State, s.Inv → s.phase = .run → s.mode = .rep → s.rc = 127#8 →
    ∀ i, i < 127 → s.imemByte (s.pos - 127 + i) = s.imemByte s.pos) ∧
  decodeSelector 0b0111#4 = .scanRepEqSat

/-- R84: SCAN_REP_NE. -/
def Obligations.ScanRepNeEmitsTheRun : Prop :=
  (∀ s : State, s.coreReady → s.mode = .rep → s.fits 2 →
    ∃ t, exec .scanRepNe s = .next t ∧ Appended s t (repBytes (s.rc.toNat + 1) (s.imemByte s.pos)) ∧ CoreFrame s t ∧
      t.mode = .raw ∧ t.rc = 0#8 ∧ t.pos = s.pos + 1 ∧ t.buf = s.buf ∧ t.blen = s.blen ∧ t.phase = s.phase ∧
      t.done = s.done) ∧
  (∀ s : State, s.coreReady → s.mode = .rep → ¬ s.fits 2 →
    exec .scanRepNe s = .next { s with fault := true, fcode := .outOverflow }) ∧
  (∀ s : State, s.phase = .run → s.fault = false → s.invariantsHold = false →
    exec .scanRepNe s = .next { s with fault := true, fcode := .invariant }) ∧
  (∀ sat : Bool, decodeSelector (0b010#3 ++ BitVec.ofBool sat) = .scanRepNe)

/-- R87: FIN_RAW, the only transition that reaches the largest raw packet, 128 literals in 129 bytes. -/
def Obligations.FinRawFlushesTheRest : Prop :=
  (∀ s : State, s.coreReady → s.mode = .raw → s.fits (s.blen.toNat + 2) →
    ∃ t, exec .finRaw s = .next t ∧ Appended s t (s.blen :: s.bufBytes ++ [s.imemByte s.pos]) ∧ CoreFrame s t ∧
      (∀ i, t.bufByte i = if i = s.blen.toNat then s.imemByte s.pos else s.bufByte i) ∧
      t.blen = 0#8 ∧ t.phase = .idle ∧ t.done = true ∧ t.pos = s.pos ∧ t.mode = .raw ∧ t.rc = s.rc) ∧
  (∀ s : State, s.coreReady → s.mode = .raw → ¬ s.fits (s.blen.toNat + 2) →
    exec .finRaw s = .next { s with fault := true, fcode := .outOverflow }) ∧
  (∀ s : State, s.phase = .run → s.fault = false → s.invariantsHold = false →
    exec .finRaw s = .next { s with fault := true, fcode := .invariant }) ∧
  (∀ (i : Instr) (s t : State), isTransition i = true → s.coreReady → exec i s = .next t → s.olen + 129 ≤ t.olen →
    i = .finRaw ∧ s.blen = 127#8) ∧
  (∀ x : BitVec 2, decodeSelector (0b10#2 ++ x) = .finRaw)

/-- R88: FIN_REP; RC keeps its final value until the next START or reset. -/
def Obligations.FinRepEmitsTheRun : Prop :=
  (∀ s : State, s.coreReady → s.mode = .rep → s.fits 2 →
    ∃ t, exec .finRep s = .next t ∧ Appended s t (repBytes (s.rc.toNat + 1) (s.imemByte s.pos)) ∧ CoreFrame s t ∧
      t.rc.toNat = s.rc.toNat + 1 ∧ t.phase = .idle ∧ t.done = true ∧ t.pos = s.pos ∧ t.mode = .rep ∧ t.buf = s.buf ∧
      t.blen = s.blen) ∧
  (∀ s : State, s.coreReady → s.mode = .rep → ¬ s.fits 2 →
    exec .finRep s = .next { s with fault := true, fcode := .outOverflow }) ∧
  (∀ s : State, s.phase = .run → s.fault = false → s.invariantsHold = false →
    exec .finRep s = .next { s with fault := true, fcode := .invariant }) ∧
  (∀ s t : State, s.phase = .idle → step s = .next t → t.rc ≠ s.rc →
    ∃ m rest, s.script = m :: rest ∧ (m.act = .powerOn ∨ ∃ v, m.act = .writeReg .ctrl v ∧ (v % 4 = 1 ∨ v % 4 = 3))) ∧
  (∀ x : BitVec 2, decodeSelector (0b11#2 ++ x) = .finRep)

/-- A CORE transition has no step while FAULT = 1 or PHASE = IDLE (R78, R106); the model names the two stops (log 10). -/
def Obligations.NoTransitionWithoutAStep : Prop :=
  ∀ (i : Instr) (s : State), isTransition i = true →
    (s.fault = true → exec i s = .fault .stuck) ∧
    (s.fault = false → s.phase = .idle → exec i s = .fault .coreIdle)

/-- R112, R62: a CORE step from a state that breaks the check raises INVARIANT and changes nothing else, and no state that
meets the invariant of every reachable state breaks it. When the machine's step is the CORE's (R78, R121) is the model's
reading: with nothing pending for the host (log 3), or with a due WAIT that DONE has not ended (R67; log 4). A move the host
delays is not in this statement. -/
def Obligations.BrokenInvariantFaultsBeforeDecoding : Prop :=
  (∀ s : State, s.Inv → s.phase = .run → s.invariantsHold = true) ∧
  ∀ s : State, s.phase = .run → s.fault = false →
    ¬ (s.pos < s.chunkLen ∧
        ((s.mode = .raw ∧ s.rc = 0#8 ∧ s.blen.toNat ≤ 127 ∧ s.blen.toNat ≤ s.pos) ∨
          (s.mode = .rep ∧ s.blen = 0#8 ∧ 1 ≤ s.rc.toNat ∧ s.rc.toNat ≤ 127))) →
    s.coreTurn = .next { s with fault := true, fcode := .invariant } ∧ (s.script = [] → step s = s.coreTurn) ∧
    (∀ m rest, s.script = m :: rest → m.act = .wait → m.after = 0 → s.done = false → step s = s.coreTurn)

/-! ## The packet builder -/

/-- R93: the repeat control byte, over the whole range the CORE reaches, and the two values that it does not; the raw control
byte. -/
def Obligations.RepeatControlByte : Prop :=
  (∀ k : Nat, 2 ≤ k → k ≤ 128 → (repeatControl k).toNat = 257 - k) ∧ repeatControl 1 = 0x00#8 ∧
  repeatControl 129 = 0x80#8 ∧
  (∀ k : Nat, 1 ≤ k → k ≤ 256 → (repeatControl k).toNat = (256 - (k - 1)) % 256) ∧
  ∀ b : BitVec 8, 1 ≤ b.toNat → b.toNat ≤ 128 → (rawControl b).toNat = b.toNat - 1

/-- R94: FlushRaw writes nothing for an empty buffer, with no capacity check; else the control byte and the buffered bytes,
and clears BLEN; or it is the overflow. -/
def Obligations.FlushRawWritesTheBuffer : Prop :=
  (∀ s : State, s.blen = 0#8 → s.flushRaw = some s) ∧
  (∀ s : State, s.blen ≠ 0#8 → s.fits (s.blen.toNat + 1) →
    ∃ t, s.flushRaw = some t ∧ Appended s t ((s.blen - 1#8) :: s.bufBytes) ∧ t = { s with omem := t.omem, olen := t.olen, blen := 0#8 }) ∧
  (∀ s : State, s.blen ≠ 0#8 → ¬ s.fits (s.blen.toNat + 1) → s.flushRaw = none)

/-- R95: EmitRepeat writes the control byte and the value, or it is the overflow; RC is the caller's. -/
def Obligations.EmitRepeatWritesTwoBytes : Prop :=
  ∀ (s : State) (k : Nat) (v : Byte), 2 ≤ k → k ≤ 128 →
    (s.fits 2 → ∃ t, s.emitRepeat k v = some t ∧ Appended s t [BitVec.ofNat 8 (257 - k), v] ∧
      t = { s with omem := t.omem, olen := t.olen }) ∧
    (¬ s.fits 2 → s.emitRepeat k v = none)

/-! ## Commands -/

/-- R100: NOP does nothing, in every state. -/
def Obligations.NopChangesNothing : Prop := decodeCommand 0b00#2 = .nop ∧ ∀ s : State, exec .nop s = .next s

/-- R101: START, its checks in their order, and the values an accepted START writes. The check of R107 never applies. LEN = 1
leads to one CORE step, FIN_RAW. -/
def Obligations.StartChecksThenBeginsARun : Prop :=
  ∀ s : State,
    (s.fault = true → exec .start s = .next s) ∧
    (s.fault = false → s.phase = .run → exec .start s = .next { s with fault := true, fcode := .startBusy }) ∧
    (s.fault = false → s.phase = .idle → s.cfg.pMaxLen < s.lenReg →
      exec .start s = .next { s with fault := true, fcode := .length }) ∧
    (s.fault = false → s.phase = .idle → s.lenReg ≤ s.cfg.pMaxLen → s.lenReg = 0 →
      exec .start s = .next { s with
        mode := .raw, rc := 0#8, blen := 0#8, pos := 0, olen := 0, chunkLen := 0, phase := .idle, done := true }) ∧
    (s.fault = false → s.phase = .idle → s.lenReg ≤ s.cfg.pMaxLen → 1 ≤ s.lenReg →
      exec .start s = .next { s with
        mode := .raw, rc := 0#8, blen := 0#8, pos := 0, olen := 0, chunkLen := s.lenReg, phase := .run, done := false }) ∧
    (∀ i, (s.imemByte i).toNat ≤ 255) ∧
    (s.fault = false → s.phase = .idle → s.script = [] → s.lenReg = 1 → 1 ≤ s.cfg.pMaxLen →
      ∃ t, exec .start s = .next t ∧ step t = exec .finRaw t) ∧
    decodeCommand 0b01#2 = .start

/-- R110: the reserved command raises BAD_CMD in any phase; R106: it has no effect while FAULT = 1. -/
def Obligations.ReservedCommandRaisesBadCmd : Prop :=
  ∀ s : State,
    (s.fault = false → exec .cmdReserved s = .next { s with fault := true, fcode := .badCmd }) ∧
    (s.fault = true → exec .cmdReserved s = .next s) ∧ decodeCommand 0b10#2 = .cmdReserved

/-- R102, R123: RESET, in every state, leaves the reset state, with every byte of IMEM, OMEM and BUF unspecified; the CORE
has no step then. What is not the block's stays (log 19), and the unspecified bytes are free values (log 2). -/
def Obligations.ResetFromEveryState : Prop :=
  ∀ s : State, ∃ t, exec .reset s = .next t ∧
    t.phase = .idle ∧ t.mode = .raw ∧ t.rc = 0#8 ∧ t.blen = 0#8 ∧ t.pos = 0 ∧ t.chunkLen = 0 ∧ t.olen = 0 ∧
    t.done = false ∧ t.fault = false ∧ t.fcode = .none ∧ t.lenReg = 0 ∧ t.status = 0x00#8 ∧ t.coreEnabled = false ∧
    (∀ a, t.imemByte a = Config.unspecified .imem (s.epoch + 1) a) ∧
    (∀ a, t.omemByte a = Config.unspecified .omem (s.epoch + 1) a) ∧
    (∀ i, t.bufByte i = Config.unspecified .buf (s.epoch + 1) i) ∧
    t.cfg = s.cfg ∧ t.script = s.script ∧ t.received = s.received ∧ t.reader = s.reader

/-- R34, R123: the values the spec gives for reset, in the state after power-on, and a power-on reset from every state. -/
def Obligations.PowerOnResetState : Prop :=
  (State.reset.phase = .idle ∧ State.reset.mode = .raw ∧ State.reset.rc = 0#8 ∧ State.reset.blen = 0#8 ∧
    State.reset.pos = 0 ∧ State.reset.chunkLen = 0 ∧ State.reset.olen = 0 ∧ State.reset.done = false ∧
    State.reset.fault = false ∧ State.reset.fcode = .none ∧ State.reset.lenReg = 0 ∧ State.reset.status = 0x00#8) ∧
  ∀ (s : State) (m : HostMove) (rest : List HostMove), s.script = m :: rest → m.act = .powerOn →
    (s.coreEnabled = true → m.after = 0) → step s = exec .reset { s with script := rest }

/-! ## Faults -/

/-- R106: the faulted state. The CORE has no step; START, NOP and the reserved command do nothing; LEN writes take effect;
STATUS, OLEN and OMEM may be read. -/
def Obligations.FaultedStateActions : Prop :=
  ∀ s : State, s.fault = true →
    s.coreEnabled = false ∧ exec .start s = .next s ∧ exec .nop s = .next s ∧ exec .cmdReserved s = .next s ∧
    (∀ v, s.hostAct (.writeReg .len v) = .next { s with lenReg := v % 2 ^ s.cfg.pCntWidth }) ∧
    s.hostAct (.readReg .status) = .next { s with received := s.status.toNat :: s.received } ∧
    s.hostAct (.readReg .olen) = .next { s with received := s.olen :: s.received } ∧
    (∀ a, a < s.cfg.pOmemSize →
      s.hostAct (.readOmem a) = .next { s with received := (s.omemByte a).toNat :: s.received })

/-- R106, R23, R115: a fault is left only by RESET or a power-on reset, and until then FCODE keeps the first code, the CORE
writes nothing and no register of the block but LEN changes. -/
def Obligations.OnlyResetLeavesAFault : Prop :=
  ∀ s t : State, s.fault = true → step s = .next t →
    (∃ m rest, s.script = m :: rest ∧ (m.act = .powerOn ∨ ∃ v, m.act = .writeReg .ctrl v ∧ v % 4 = 3)) ∨
    (t.fault = true ∧ t.fcode = s.fcode ∧ t.phase = s.phase ∧ t.mode = s.mode ∧ t.rc = s.rc ∧ t.buf = s.buf ∧
      t.blen = s.blen ∧ t.pos = s.pos ∧ t.chunkLen = s.chunkLen ∧ t.olen = s.olen ∧ t.done = s.done ∧ t.omem = s.omem)

/-- R105: faults are precise. A step that newly sets FAULT changes no register, no BUF entry and no byte of IMEM or OMEM but
FAULT and FCODE; only the host's script moves on (log 3). -/
def Obligations.FaultsArePrecise : Prop :=
  ∀ s t : State, s.fault = false → step s = .next t → t.fault = true →
    t = { s with fault := true, fcode := t.fcode, script := t.script } ∧ t.fcode ≠ .none

/-- R107: with 8-bit IMEM the fault INPUT_RANGE cannot fire, whatever the state and the step. -/
def Obligations.InputRangeNeverFires : Prop :=
  ∀ s t : State, step s = .next t → t.fcode = .inputRange → s.fcode = .inputRange

/-! ## The host's registers and memories -/

/-- R32: the fields of STATUS, FCODE by the numbers of R103, and that no state that meets the invariant shows DONE and BUSY together. -/
def Obligations.StatusByteFields : Prop :=
  (∀ s : State, s.Inv → ¬ (s.status.getLsbD 0 = true ∧ s.status.getLsbD 1 = true)) ∧
  ∀ s : State,
    s.status.getLsbD 0 = s.done ∧ s.status.getLsbD 1 = decide (s.phase = .run) ∧
    s.status.getLsbD 2 = decide (s.mode = .rep) ∧ s.status.getLsbD 3 = s.fault ∧
    s.status.extractLsb' 4 3 = s.fcode.bits ∧
    (s.status.extractLsb' 4 3).toNat =
      (match s.fcode with
        | .none => 0
        | .badCmd => 1
        | .startBusy => 2
        | .length => 3
        | .inputRange => 4
        | .outOverflow => 5
        | .invariant => 6) ∧
    s.status.getLsbD 7 = false ∧
    s.hostAct (.readReg .status) = .next { s with received := s.status.toNat :: s.received } ∧
    ∀ v, s.hostAct (.writeReg .status v) = .next s

/-- R31, R65: reads and writes of the four interface registers. A read of OLEN has its own statement for a run in progress
(R48). The truncation of a LEN value to its width is DEDUCED, log 11. -/
def Obligations.InterfaceRegisters : Prop :=
  ∀ s : State,
    s.hostAct (.readReg .ctrl) = .next { s with received := 0 :: s.received } ∧
    s.hostAct (.readReg .len) = .next { s with received := s.lenReg :: s.received } ∧
    s.hostAct (.readReg .status) = .next { s with received := s.status.toNat :: s.received } ∧
    (s.coreEnabled = false → s.hostAct (.readReg .olen) = .next { s with received := s.olen :: s.received }) ∧
    (∀ v, v < 2 ^ s.cfg.pCntWidth → s.hostAct (.writeReg .len v) = .next { s with lenReg := v }) ∧
    (∀ v, s.hostAct (.writeReg .status v) = .next s) ∧ (∀ v, s.hostAct (.writeReg .olen v) = .next s)

/-- R122, R127: what the host can do in a run. LEN changes and L does not; NOP does nothing; START faults; RESET aborts;
STATUS is readable. -/
def Obligations.HostActionsDuringARun : Prop :=
  ∀ s : State, s.phase = .run → s.fault = false →
    exec .nop s = .next s ∧
    exec .start s = .next { s with fault := true, fcode := .startBusy } ∧
    (∃ t, exec .reset s = .next t ∧ t.phase = .idle ∧ t.done = false) ∧
    (∀ v, ∃ t, s.hostAct (.writeReg .len v) = .next t ∧ t = { s with lenReg := t.lenReg } ∧ t.chunkLen = s.chunkLen ∧
      (v < 2 ^ s.cfg.pCntWidth → t.lenReg = v)) ∧
    s.hostAct (.readReg .status) = .next { s with received := s.status.toNat :: s.received }

/-- R36, R119, R126: the host's write of IMEM while PHASE = IDLE stores one byte and nothing else; in a run it is refused by
name (log 8); an address IMEM does not have faults (log 13). -/
def Obligations.HostWriteOfImem : Prop :=
  ∀ (s : State) (a : Nat) (b : Byte),
    (s.phase = .idle → a < s.cfg.pMaxLen → ∃ t, s.hostAct (.writeImem a b) = .next t ∧ t = { s with imem := t.imem } ∧
      ∀ x, t.imemByte x = if x = a then b else s.imemByte x) ∧
    (s.phase = .idle → s.cfg.pMaxLen ≤ a → s.hostAct (.writeImem a b) = .fault .imemAddress) ∧
    (s.phase = .run → s.hostAct (.writeImem a b) = .refused .imemWriteInRun)

/-- R39, R48, R119: a host read of OMEM or OLEN returns the value and changes nothing; collect hands `OMEM[0..OLEN-1]` to the
reader and leaves all else alone; in a run that has not faulted each is refused by name (log 7). feed hands the reader bytes
of the host's own, in any state. The reader is the model's (log 5). -/
def Obligations.HostReadOfOutput : Prop :=
  ∀ (s : State) (a : Nat),
    (s.coreEnabled = false → a < s.cfg.pOmemSize →
      s.hostAct (.readOmem a) = .next { s with received := (s.omemByte a).toNat :: s.received }) ∧
    (s.coreEnabled = false → s.cfg.pOmemSize ≤ a → s.hostAct (.readOmem a) = .fault .omemAddress) ∧
    (s.coreEnabled = false → s.hostAct (.readReg .olen) = .next { s with received := s.olen :: s.received }) ∧
    (s.coreEnabled = false → s.hostAct .collect = .next { s with
      reader := { stream := (List.range s.olen).map s.omemByte, expanded := [], fault := none } }) ∧
    (s.phase = .run → s.fault = false →
      s.hostAct (.readOmem a) = .refused .outputReadInRun ∧ s.hostAct (.readReg .olen) = .refused .outputReadInRun ∧
      s.hostAct .collect = .refused .outputReadInRun) ∧
    (∀ bytes, s.hostAct (.feed bytes) =
      .next { s with reader := { stream := bytes, expanded := [], fault := none } })

/-- R67, R119: only DONE or FAULT ends a wait. -/
def Obligations.OnlyDoneOrFaultEndsAWait : Prop :=
  ∀ (s t : State) (m : HostMove) (rest : List HostMove), s.script = m :: rest → m.act = .wait →
    (s.done = false → s.fault = false → step s = .next t →
      ∃ m', t.script = m' :: rest ∧ m'.act = .wait) ∧
    ((s.done = true ∨ s.fault = true) → s.coreEnabled = false →
      step s = .next { s with script := rest, received := s.status.toNat :: s.received })

/-! ## The step -/

/-- R78, R60, R61: with nothing pending for the host, a step of a CORE that has one and passes the check runs the transition
that `{FIN, MODE, EQ, SAT}` of the state before it selects; a move the host delays lets it run first (log 3), and so does a WAIT that DONE has not ended, due
or not (R67, R121; log 4). -/
def Obligations.StepRunsTheSelectedTransition : Prop :=
  ∀ s : State, s.coreReady → ∀ sel : BitVec 4,
    sel.getLsbD 3 = decide (s.pos + 1 = s.chunkLen) → sel.getLsbD 2 = decide (s.mode = .rep) →
    sel.getLsbD 1 = decide (s.pos + 1 ≠ s.chunkLen ∧ s.imemByte s.pos = s.imemByte (s.pos + 1)) →
    sel.getLsbD 0 = decide ((s.mode = .raw ∧ s.blen = 127#8) ∨ (s.mode = .rep ∧ s.rc = 127#8)) →
    (s.script = [] → step s = exec (decodeSelector sel) s) ∧
    (∀ m rest, s.script = m :: rest → 0 < m.after →
      step s = exec (decodeSelector sel) { s with script := { m with after := m.after - 1 } :: rest }) ∧
    (∀ m rest, s.script = m :: rest → m.act = .wait → m.after = 0 → s.done = false →
      step s = exec (decodeSelector sel) s)

/-- R63, R67: a write of CTRL at the host's turn runs the command its low two bits decode to; R121: any move but a WAIT, at its
turn, is taken off the script and made (log 3). -/
def Obligations.StepRunsTheWrittenCommand : Prop :=
  ∀ (s : State) (m : HostMove) (rest : List HostMove), s.script = m :: rest → (s.coreEnabled = true → m.after = 0) →
    (∀ (v : Nat) (cmd : BitVec 2), m.act = .writeReg .ctrl v → cmd.toNat = v % 4 →
      step s = exec (decodeCommand cmd) { s with script := rest }) ∧
    (m.act ≠ .wait → step s = State.hostAct { s with script := rest } m.act)

/-- R71: at the reader's turn the first packet of its stream is decoded and run, and the reader moves past it, past the
one byte of the reserved packet too (log 20). The reader is the model's (log 5). -/
def Obligations.StepRunsTheNextPacket : Prop :=
  ∀ (s : State) (m : HostMove) (rest : List HostMove) (i : Instr) (bytes : List Byte), s.script = m :: rest →
    m.act = .readPacket → (s.coreEnabled = true → m.after = 0) → s.reader.fault = none →
    decodePacket s.reader.stream = .ok (i, bytes) →
    step s = exec i { s with script := rest, reader := { s.reader with stream := bytes } }

/-- R125, R106: with no move pending, an idle machine waits unchanged and a faulted one is stuck. -/
def Obligations.NothingPendingWaitsOrIsStuck : Prop :=
  ∀ s : State, s.script = [] →
    (s.fault = true → step s = .fault .stuck) ∧ (s.fault = false → s.phase = .idle → step s = .next s)

/-- The word of an opcode-table row, placed by `withFetchWord`, is what the next step decodes and runs (log 14). -/
def Obligations.PlacedTableWordIsRunNext : Prop :=
  ∀ (s : State) (nbits w : Nat) (i : Instr), decodeTableWord nbits w = some i →
    ∃ u, step (s.withFetchWord nbits w) = exec i u ∧
      (isTransition i = true → u = s.withFetchWord nbits w ∧ u.coreReady) ∧
      (isCommand i = true → u = s) ∧
      (isPacket i = true → u.reader.fault = none ∧ u.script = s.script)

/-! ## The whole machine -/

/-- The reset state meets the invariant. Its parameters are the model's (log 1). -/
def Obligations.ResetMeetsTheInvariant : Prop := State.reset.Inv

/-- Every step keeps the byte stores in canonical form and within the addresses that exist (R17, R36, R39). -/
def Obligations.StepKeepsStoresCanonical : Prop :=
  ∀ s t : State, s.memInv → step s = .next t → t.memInv

/-- Every step keeps the invariant: the legal ranges, R28 in RAW, R29 in REPEAT, and the progress invariant R30. -/
def Obligations.StepKeepsTheInvariant : Prop :=
  ∀ s t : State, s.Inv → step s = .next t → t.Inv

/-- R15, R16, R17: which instructions write MODE, RC and BUF. -/
def Obligations.OnlyTheirWritersChangeModeRcBuf : Prop :=
  ∀ (i : Instr) (s t : State), exec i s = .next t →
    (t.mode ≠ s.mode → i = .scanRawEq ∨ i = .scanRepNe ∨ i = .start ∨ i = .reset) ∧
    (t.rc ≠ s.rc → i = .scanRawEq ∨ i = .scanRepEq ∨ i = .scanRepEqSat ∨ i = .scanRepNe ∨ i = .finRep ∨ i = .start ∨
      i = .reset) ∧
    (t.buf ≠ s.buf → i = .scanRawNe ∨ i = .scanRawNeFull ∨ i = .finRaw ∨ i = .reset)

/-- R36, R13: no instruction but RESET changes a byte of IMEM, and none at all the parameters. -/
def Obligations.NoInstructionWritesImem : Prop :=
  ∀ (i : Instr) (s t : State), exec i s = .next t →
    t.cfg = s.cfg ∧ (i ≠ .reset → ∀ a, t.imemByte a = s.imemByte a)

/-- R41: within a run, a byte of OMEM below OLEN is never written again, and OLEN does not go back. -/
def Obligations.WrittenOutputIsNeverRewritten : Prop :=
  ∀ (i : Instr) (s t : State), isTransition i = true → exec i s = .next t →
    s.olen ≤ t.olen ∧ ∀ a, a < s.olen → t.omemByte a = s.omemByte a

/-- R44, R73, R74: from a reachable state a step of the CORE writes no packet or exactly one, whole, a raw one of 1 to 128
literals or a repeat one of 2 to 128 copies. -/
def Obligations.AStepWritesAtMostOnePacket : Prop :=
  ∀ s t : State, s.Inv → s.script = [] → s.coreEnabled = true → step s = .next t →
    t.output = s.output ∨
      ∃ i, boundedPacket i = true ∧ t.output = s.output ++ packetBytes i

/-- R72, R89: the step that ends a run leaves an output whose meaning is the chunk, and Expand raises no fault; the empty
chunk, which START itself completes, too. -/
def Obligations.RunEndsInRoundTrip : Prop :=
  (∀ s t : State, s.Inv → s.phase = .run → step s = .next t → t.done = true →
    t.phase = .idle ∧ t.fault = false ∧ expand t.output = .ok (t.input t.chunkLen) ∧ t.chunkLen = s.chunkLen ∧
      t.olen ≤ 2 * t.chunkLen) ∧
  (∀ s : State, s.fault = false → s.phase = .idle → s.lenReg = 0 →
    ∃ t, exec .start s = .next t ∧ t.done = true ∧ t.fault = false ∧ t.phase = .idle ∧
      expand t.output = .ok (t.input t.chunkLen) ∧ t.chunkLen = 0)

/-- R111, R98: with `P_OMEM_SIZE >= 2 * P_MAX_LEN` no step raises OUT_OVERFLOW. -/
def Obligations.RecommendedSizeNeverOverflows : Prop :=
  ∀ s t : State, s.Inv → 2 * s.cfg.pMaxLen ≤ s.cfg.pOmemSize → step s = .next t →
    t.fcode = .outOverflow → s.fcode = .outOverflow

/-- R85, step-wise: from a reachable state in a run, left alone and with room, the CORE finishes the chunk in `L - POS` steps
and writes exactly what the document's scan writes from there on. -/
def Obligations.RunFinishesTheDocumentsScan : Prop :=
  ∀ s : State, s.Inv → s.phase = .run → s.fault = false → s.script = [] →
    2 * s.cfg.pMaxLen ≤ s.cfg.pOmemSize →
    ∃ t, core.run (s.chunkLen - s.pos) s = .next t ∧ t.done = true ∧ t.phase = .idle ∧ t.fault = false ∧
      t.output = s.output ++
        encodeFrom s.mode s.rc.toNat s.bufBytes ((s.input s.chunkLen).drop s.pos)

/-- R77, R85, R99, R134: an accepted START with `LEN = n >= 1` ends with DONE = 1 after exactly n CORE steps and no sooner,
and OMEM then holds `encode` of the chunk. -/
def Obligations.StartedRunEncodesTheChunk : Prop :=
  ∀ s : State, s.Inv → s.phase = .idle → s.fault = false → s.script = [] → 1 ≤ s.lenReg → s.lenReg ≤ s.cfg.pMaxLen →
    2 * s.cfg.pMaxLen ≤ s.cfg.pOmemSize →
    ∃ u t, exec .start s = .next u ∧ core.run s.lenReg u = .next t ∧ t.done = true ∧ t.phase = .idle ∧ t.fault = false ∧
      t.output = encodeChunk (s.input s.lenReg) ∧ t.olen = (encodeChunk (s.input s.lenReg)).length ∧
      expand t.output = .ok (s.input s.lenReg) ∧
      ∀ k, k < s.lenReg → ∃ v, core.run k u = .next v ∧ v.done = false ∧ v.phase = .run ∧ v.pos = k

/-- R134: whatever the sizes, a started run left alone ends within n steps: with DONE = 1 after exactly n, or with FAULT = 1
at one of them. -/
def Obligations.EveryRunEndsOrFaults : Prop :=
  ∀ s : State, s.Inv → s.phase = .idle → s.fault = false → s.script = [] → 1 ≤ s.lenReg → s.lenReg ≤ s.cfg.pMaxLen →
    ∃ u, exec .start s = .next u ∧
      ((∃ t, core.run s.lenReg u = .next t ∧ t.done = true ∧ t.phase = .idle ∧ t.fault = false) ∨
        ∃ k t, 1 ≤ k ∧ k ≤ s.lenReg ∧ core.run k u = .next t ∧ t.fault = true ∧ t.fcode = .outOverflow ∧ t.done = false)

/-- R72 for the document's function: its output means its input. -/
def Obligations.EncodeRoundTrip : Prop := ∀ input : List Byte, expand (encodeChunk input) = .ok input

/-- R75, R76: the output of the document's function is the one the run law and the literal law give. -/
def Obligations.EncodeObeysRunAndLiteralLaws : Prop :=
  ∀ input : List Byte, encodeChunk input = lawOutput [] (runsOf input)

/-- R73, R74, R98: the output is whole packets within the bounds, none with control byte 0x80, at most `2 L` bytes. -/
def Obligations.EncodeWritesBoundedPackets : Prop :=
  ∀ input : List Byte, WholePackets (encodeChunk input) ∧ (encodeChunk input).length ≤ 2 * input.length

/-- R121, R122, R127: what a CORE transition does, does not depend on LEN, on the host's pending moves and received values or
on the reader, and leaves them alone: host actions allowed in a run do not change its output. -/
def Obligations.TransitionsIgnoreTheHostSide : Prop :=
  ∀ (i : Instr) (s : State) (lenReg : Nat) (script : List HostMove) (received : List Nat) (reader : Reader),
    isTransition i = true →
    exec i (s.withHostSide lenReg script received reader) =
      Outcome.withHostSide (exec i s) lenReg script received reader

/-- R45, R2: the run is a function of the chunk alone. Two states with the same chunk, whatever else differs (older output,
buffer, bytes above L, free values), both finish with DONE = 1 and the same encoding. -/
def Obligations.EncodingDependsOnTheChunkOnly : Prop :=
  ∀ s s' : State, s.Inv → s'.Inv → s.phase = .idle → s'.phase = .idle → s.fault = false → s'.fault = false →
    s.script = [] → s'.script = [] → 1 ≤ s.lenReg → s.lenReg ≤ s.cfg.pMaxLen → s'.lenReg ≤ s'.cfg.pMaxLen →
    2 * s.cfg.pMaxLen ≤ s.cfg.pOmemSize → 2 * s'.cfg.pMaxLen ≤ s'.cfg.pOmemSize →
    s.input s.lenReg = s'.input s'.lenReg →
    ∃ u u' t t', exec .start s = .next u ∧ exec .start s' = .next u' ∧ core.run s.lenReg u = .next t ∧
      core.run s'.lenReg u' = .next t' ∧ t.done = true ∧ t'.done = true ∧ t.output = t'.output ∧ t.olen = t'.olen
end

