-- ==== Sys2Proof/Laws/State.lean ====
section
/-! SUPPORT. One lemma per field per update of the state. -/

namespace Sys2Proof.Machine

/-! ### raise Fault (R104): FAULT and FCODE, nothing else -/

@[simp] theorem State.raise_cfg (s : State) (c : FCode) : (s.raise c).cfg = s.cfg := rfl
@[simp] theorem State.raise_phase (s : State) (c : FCode) : (s.raise c).phase = s.phase := rfl
@[simp] theorem State.raise_mode (s : State) (c : FCode) : (s.raise c).mode = s.mode := rfl
@[simp] theorem State.raise_rc (s : State) (c : FCode) : (s.raise c).rc = s.rc := rfl
@[simp] theorem State.raise_buf (s : State) (c : FCode) : (s.raise c).buf = s.buf := rfl
@[simp] theorem State.raise_blen (s : State) (c : FCode) : (s.raise c).blen = s.blen := rfl
@[simp] theorem State.raise_pos (s : State) (c : FCode) : (s.raise c).pos = s.pos := rfl
@[simp] theorem State.raise_chunkLen (s : State) (c : FCode) : (s.raise c).chunkLen = s.chunkLen := rfl
@[simp] theorem State.raise_olen (s : State) (c : FCode) : (s.raise c).olen = s.olen := rfl
@[simp] theorem State.raise_done (s : State) (c : FCode) : (s.raise c).done = s.done := rfl
@[simp] theorem State.raise_fault (s : State) (c : FCode) : (s.raise c).fault = true := rfl
@[simp] theorem State.raise_fcode (s : State) (c : FCode) : (s.raise c).fcode = c := rfl
@[simp] theorem State.raise_lenReg (s : State) (c : FCode) : (s.raise c).lenReg = s.lenReg := rfl
@[simp] theorem State.raise_imem (s : State) (c : FCode) : (s.raise c).imem = s.imem := rfl
@[simp] theorem State.raise_omem (s : State) (c : FCode) : (s.raise c).omem = s.omem := rfl
@[simp] theorem State.raise_epoch (s : State) (c : FCode) : (s.raise c).epoch = s.epoch := rfl
@[simp] theorem State.raise_script (s : State) (c : FCode) : (s.raise c).script = s.script := rfl
@[simp] theorem State.raise_received (s : State) (c : FCode) : (s.raise c).received = s.received := rfl
@[simp] theorem State.raise_reader (s : State) (c : FCode) : (s.raise c).reader = s.reader := rfl

/-! ### reset (R123) -/

@[simp] theorem State.performReset_cfg (s : State) : (s.performReset).cfg = s.cfg := rfl
@[simp] theorem State.performReset_phase (s : State) : (s.performReset).phase = .idle := rfl
@[simp] theorem State.performReset_mode (s : State) : (s.performReset).mode = .raw := rfl
@[simp] theorem State.performReset_rc (s : State) : (s.performReset).rc = 0#8 := rfl
@[simp] theorem State.performReset_buf (s : State) : (s.performReset).buf = [] := rfl
@[simp] theorem State.performReset_blen (s : State) : (s.performReset).blen = 0#8 := rfl
@[simp] theorem State.performReset_pos (s : State) : (s.performReset).pos = 0 := rfl
@[simp] theorem State.performReset_chunkLen (s : State) : (s.performReset).chunkLen = 0 := rfl
@[simp] theorem State.performReset_olen (s : State) : (s.performReset).olen = 0 := rfl
@[simp] theorem State.performReset_done (s : State) : (s.performReset).done = false := rfl
@[simp] theorem State.performReset_fault (s : State) : (s.performReset).fault = false := rfl
@[simp] theorem State.performReset_fcode (s : State) : (s.performReset).fcode = .none := rfl
@[simp] theorem State.performReset_lenReg (s : State) : (s.performReset).lenReg = 0 := rfl
@[simp] theorem State.performReset_imem (s : State) : (s.performReset).imem = [] := rfl
@[simp] theorem State.performReset_omem (s : State) : (s.performReset).omem = [] := rfl
@[simp] theorem State.performReset_epoch (s : State) : (s.performReset).epoch = s.epoch + 1 := rfl
@[simp] theorem State.performReset_script (s : State) : (s.performReset).script = s.script := rfl
@[simp] theorem State.performReset_received (s : State) : (s.performReset).received = s.received := rfl
@[simp] theorem State.performReset_reader (s : State) : (s.performReset).reader = s.reader := rfl

/-! ### Emit (R91): OMEM and OLEN -/

@[simp] theorem State.emit_cfg (s : State) (b : Byte) : (s.emit b).cfg = s.cfg := rfl
@[simp] theorem State.emit_phase (s : State) (b : Byte) : (s.emit b).phase = s.phase := rfl
@[simp] theorem State.emit_mode (s : State) (b : Byte) : (s.emit b).mode = s.mode := rfl
@[simp] theorem State.emit_rc (s : State) (b : Byte) : (s.emit b).rc = s.rc := rfl
@[simp] theorem State.emit_buf (s : State) (b : Byte) : (s.emit b).buf = s.buf := rfl
@[simp] theorem State.emit_blen (s : State) (b : Byte) : (s.emit b).blen = s.blen := rfl
@[simp] theorem State.emit_pos (s : State) (b : Byte) : (s.emit b).pos = s.pos := rfl
@[simp] theorem State.emit_chunkLen (s : State) (b : Byte) : (s.emit b).chunkLen = s.chunkLen := rfl
@[simp] theorem State.emit_olen (s : State) (b : Byte) : (s.emit b).olen = s.olen + 1 := rfl
@[simp] theorem State.emit_done (s : State) (b : Byte) : (s.emit b).done = s.done := rfl
@[simp] theorem State.emit_fault (s : State) (b : Byte) : (s.emit b).fault = s.fault := rfl
@[simp] theorem State.emit_fcode (s : State) (b : Byte) : (s.emit b).fcode = s.fcode := rfl
@[simp] theorem State.emit_lenReg (s : State) (b : Byte) : (s.emit b).lenReg = s.lenReg := rfl
@[simp] theorem State.emit_imem (s : State) (b : Byte) : (s.emit b).imem = s.imem := rfl
@[simp] theorem State.emit_omem (s : State) (b : Byte) : (s.emit b).omem = s.omem.write s.olen b := rfl
@[simp] theorem State.emit_epoch (s : State) (b : Byte) : (s.emit b).epoch = s.epoch := rfl
@[simp] theorem State.emit_script (s : State) (b : Byte) : (s.emit b).script = s.script := rfl
@[simp] theorem State.emit_received (s : State) (b : Byte) : (s.emit b).received = s.received := rfl
@[simp] theorem State.emit_reader (s : State) (b : Byte) : (s.emit b).reader = s.reader := rfl

/-! ### append to BUF (R80) -/

@[simp] theorem State.append_cfg (s : State) (b : Byte) : (s.append b).cfg = s.cfg := rfl
@[simp] theorem State.append_phase (s : State) (b : Byte) : (s.append b).phase = s.phase := rfl
@[simp] theorem State.append_mode (s : State) (b : Byte) : (s.append b).mode = s.mode := rfl
@[simp] theorem State.append_rc (s : State) (b : Byte) : (s.append b).rc = s.rc := rfl
@[simp] theorem State.append_buf (s : State) (b : Byte) : (s.append b).buf = s.buf.write s.blen.toNat b := rfl
@[simp] theorem State.append_blen (s : State) (b : Byte) : (s.append b).blen = s.blen + 1#8 := rfl
@[simp] theorem State.append_pos (s : State) (b : Byte) : (s.append b).pos = s.pos := rfl
@[simp] theorem State.append_chunkLen (s : State) (b : Byte) : (s.append b).chunkLen = s.chunkLen := rfl
@[simp] theorem State.append_olen (s : State) (b : Byte) : (s.append b).olen = s.olen := rfl
@[simp] theorem State.append_done (s : State) (b : Byte) : (s.append b).done = s.done := rfl
@[simp] theorem State.append_fault (s : State) (b : Byte) : (s.append b).fault = s.fault := rfl
@[simp] theorem State.append_fcode (s : State) (b : Byte) : (s.append b).fcode = s.fcode := rfl
@[simp] theorem State.append_lenReg (s : State) (b : Byte) : (s.append b).lenReg = s.lenReg := rfl
@[simp] theorem State.append_imem (s : State) (b : Byte) : (s.append b).imem = s.imem := rfl
@[simp] theorem State.append_omem (s : State) (b : Byte) : (s.append b).omem = s.omem := rfl
@[simp] theorem State.append_epoch (s : State) (b : Byte) : (s.append b).epoch = s.epoch := rfl
@[simp] theorem State.append_script (s : State) (b : Byte) : (s.append b).script = s.script := rfl
@[simp] theorem State.append_received (s : State) (b : Byte) : (s.append b).received = s.received := rfl
@[simp] theorem State.append_reader (s : State) (b : Byte) : (s.append b).reader = s.reader := rfl

/-! ### an accepted START (R101) -/

@[simp] theorem State.started_cfg (s : State) (n : Nat) : (s.started n).cfg = s.cfg := rfl
@[simp] theorem State.started_phase (s : State) (n : Nat) : (s.started n).phase = (if n = 0 then .idle else .run) := rfl
@[simp] theorem State.started_mode (s : State) (n : Nat) : (s.started n).mode = .raw := rfl
@[simp] theorem State.started_rc (s : State) (n : Nat) : (s.started n).rc = 0#8 := rfl
@[simp] theorem State.started_buf (s : State) (n : Nat) : (s.started n).buf = s.buf := rfl
@[simp] theorem State.started_blen (s : State) (n : Nat) : (s.started n).blen = 0#8 := rfl
@[simp] theorem State.started_pos (s : State) (n : Nat) : (s.started n).pos = 0 := rfl
@[simp] theorem State.started_chunkLen (s : State) (n : Nat) : (s.started n).chunkLen = n := rfl
@[simp] theorem State.started_olen (s : State) (n : Nat) : (s.started n).olen = 0 := rfl
@[simp] theorem State.started_done (s : State) (n : Nat) : (s.started n).done = decide (n = 0) := rfl
@[simp] theorem State.started_fault (s : State) (n : Nat) : (s.started n).fault = s.fault := rfl
@[simp] theorem State.started_fcode (s : State) (n : Nat) : (s.started n).fcode = s.fcode := rfl
@[simp] theorem State.started_lenReg (s : State) (n : Nat) : (s.started n).lenReg = s.lenReg := rfl
@[simp] theorem State.started_imem (s : State) (n : Nat) : (s.started n).imem = s.imem := rfl
@[simp] theorem State.started_omem (s : State) (n : Nat) : (s.started n).omem = s.omem := rfl
@[simp] theorem State.started_epoch (s : State) (n : Nat) : (s.started n).epoch = s.epoch := rfl
@[simp] theorem State.started_script (s : State) (n : Nat) : (s.started n).script = s.script := rfl
@[simp] theorem State.started_received (s : State) (n : Nat) : (s.started n).received = s.received := rfl
@[simp] theorem State.started_reader (s : State) (n : Nat) : (s.started n).reader = s.reader := rfl

/-! ### a value handed to the host (R119) -/

@[simp] theorem State.receive_cfg (s : State) (v : Nat) : (s.receive v).cfg = s.cfg := rfl
@[simp] theorem State.receive_phase (s : State) (v : Nat) : (s.receive v).phase = s.phase := rfl
@[simp] theorem State.receive_mode (s : State) (v : Nat) : (s.receive v).mode = s.mode := rfl
@[simp] theorem State.receive_rc (s : State) (v : Nat) : (s.receive v).rc = s.rc := rfl
@[simp] theorem State.receive_buf (s : State) (v : Nat) : (s.receive v).buf = s.buf := rfl
@[simp] theorem State.receive_blen (s : State) (v : Nat) : (s.receive v).blen = s.blen := rfl
@[simp] theorem State.receive_pos (s : State) (v : Nat) : (s.receive v).pos = s.pos := rfl
@[simp] theorem State.receive_chunkLen (s : State) (v : Nat) : (s.receive v).chunkLen = s.chunkLen := rfl
@[simp] theorem State.receive_olen (s : State) (v : Nat) : (s.receive v).olen = s.olen := rfl
@[simp] theorem State.receive_done (s : State) (v : Nat) : (s.receive v).done = s.done := rfl
@[simp] theorem State.receive_fault (s : State) (v : Nat) : (s.receive v).fault = s.fault := rfl
@[simp] theorem State.receive_fcode (s : State) (v : Nat) : (s.receive v).fcode = s.fcode := rfl
@[simp] theorem State.receive_lenReg (s : State) (v : Nat) : (s.receive v).lenReg = s.lenReg := rfl
@[simp] theorem State.receive_imem (s : State) (v : Nat) : (s.receive v).imem = s.imem := rfl
@[simp] theorem State.receive_omem (s : State) (v : Nat) : (s.receive v).omem = s.omem := rfl
@[simp] theorem State.receive_epoch (s : State) (v : Nat) : (s.receive v).epoch = s.epoch := rfl
@[simp] theorem State.receive_script (s : State) (v : Nat) : (s.receive v).script = s.script := rfl
@[simp] theorem State.receive_received (s : State) (v : Nat) : (s.receive v).received = v :: s.received := rfl
@[simp] theorem State.receive_reader (s : State) (v : Nat) : (s.receive v).reader = s.reader := rfl

/-! ### accept: the reader only (R71) -/

theorem State.accept_eq (s : State) (bs : List Byte) : s.accept bs = { s with reader := (s.accept bs).reader } := by
  unfold State.accept; split <;> rfl

@[simp] theorem State.accept_cfg (s : State) (bs : List Byte) : (s.accept bs).cfg = s.cfg := by
  unfold State.accept; split <;> rfl
@[simp] theorem State.accept_phase (s : State) (bs : List Byte) : (s.accept bs).phase = s.phase := by
  unfold State.accept; split <;> rfl
@[simp] theorem State.accept_mode (s : State) (bs : List Byte) : (s.accept bs).mode = s.mode := by
  unfold State.accept; split <;> rfl
@[simp] theorem State.accept_rc (s : State) (bs : List Byte) : (s.accept bs).rc = s.rc := by
  unfold State.accept; split <;> rfl
@[simp] theorem State.accept_buf (s : State) (bs : List Byte) : (s.accept bs).buf = s.buf := by
  unfold State.accept; split <;> rfl
@[simp] theorem State.accept_blen (s : State) (bs : List Byte) : (s.accept bs).blen = s.blen := by
  unfold State.accept; split <;> rfl
@[simp] theorem State.accept_pos (s : State) (bs : List Byte) : (s.accept bs).pos = s.pos := by
  unfold State.accept; split <;> rfl
@[simp] theorem State.accept_chunkLen (s : State) (bs : List Byte) : (s.accept bs).chunkLen = s.chunkLen := by
  unfold State.accept; split <;> rfl
@[simp] theorem State.accept_olen (s : State) (bs : List Byte) : (s.accept bs).olen = s.olen := by
  unfold State.accept; split <;> rfl
@[simp] theorem State.accept_done (s : State) (bs : List Byte) : (s.accept bs).done = s.done := by
  unfold State.accept; split <;> rfl
@[simp] theorem State.accept_fault (s : State) (bs : List Byte) : (s.accept bs).fault = s.fault := by
  unfold State.accept; split <;> rfl
@[simp] theorem State.accept_fcode (s : State) (bs : List Byte) : (s.accept bs).fcode = s.fcode := by
  unfold State.accept; split <;> rfl
@[simp] theorem State.accept_lenReg (s : State) (bs : List Byte) : (s.accept bs).lenReg = s.lenReg := by
  unfold State.accept; split <;> rfl
@[simp] theorem State.accept_imem (s : State) (bs : List Byte) : (s.accept bs).imem = s.imem := by
  unfold State.accept; split <;> rfl
@[simp] theorem State.accept_omem (s : State) (bs : List Byte) : (s.accept bs).omem = s.omem := by
  unfold State.accept; split <;> rfl
@[simp] theorem State.accept_epoch (s : State) (bs : List Byte) : (s.accept bs).epoch = s.epoch := by
  unfold State.accept; split <;> rfl
@[simp] theorem State.accept_script (s : State) (bs : List Byte) : (s.accept bs).script = s.script := by
  unfold State.accept; split <;> rfl
@[simp] theorem State.accept_received (s : State) (bs : List Byte) : (s.accept bs).received = s.received := by
  unfold State.accept; split <;> rfl

/-! ### expandRaise: the reader only (R71) -/

theorem State.expandRaise_eq (s : State) (f : ExpandFault) : s.expandRaise f = { s with reader := (s.expandRaise f).reader } := by
  unfold State.expandRaise; split <;> rfl

@[simp] theorem State.expandRaise_cfg (s : State) (f : ExpandFault) : (s.expandRaise f).cfg = s.cfg := by
  unfold State.expandRaise; split <;> rfl
@[simp] theorem State.expandRaise_phase (s : State) (f : ExpandFault) : (s.expandRaise f).phase = s.phase := by
  unfold State.expandRaise; split <;> rfl
@[simp] theorem State.expandRaise_mode (s : State) (f : ExpandFault) : (s.expandRaise f).mode = s.mode := by
  unfold State.expandRaise; split <;> rfl
@[simp] theorem State.expandRaise_rc (s : State) (f : ExpandFault) : (s.expandRaise f).rc = s.rc := by
  unfold State.expandRaise; split <;> rfl
@[simp] theorem State.expandRaise_buf (s : State) (f : ExpandFault) : (s.expandRaise f).buf = s.buf := by
  unfold State.expandRaise; split <;> rfl
@[simp] theorem State.expandRaise_blen (s : State) (f : ExpandFault) : (s.expandRaise f).blen = s.blen := by
  unfold State.expandRaise; split <;> rfl
@[simp] theorem State.expandRaise_pos (s : State) (f : ExpandFault) : (s.expandRaise f).pos = s.pos := by
  unfold State.expandRaise; split <;> rfl
@[simp] theorem State.expandRaise_chunkLen (s : State) (f : ExpandFault) : (s.expandRaise f).chunkLen = s.chunkLen := by
  unfold State.expandRaise; split <;> rfl
@[simp] theorem State.expandRaise_olen (s : State) (f : ExpandFault) : (s.expandRaise f).olen = s.olen := by
  unfold State.expandRaise; split <;> rfl
@[simp] theorem State.expandRaise_done (s : State) (f : ExpandFault) : (s.expandRaise f).done = s.done := by
  unfold State.expandRaise; split <;> rfl
@[simp] theorem State.expandRaise_fault (s : State) (f : ExpandFault) : (s.expandRaise f).fault = s.fault := by
  unfold State.expandRaise; split <;> rfl
@[simp] theorem State.expandRaise_fcode (s : State) (f : ExpandFault) : (s.expandRaise f).fcode = s.fcode := by
  unfold State.expandRaise; split <;> rfl
@[simp] theorem State.expandRaise_lenReg (s : State) (f : ExpandFault) : (s.expandRaise f).lenReg = s.lenReg := by
  unfold State.expandRaise; split <;> rfl
@[simp] theorem State.expandRaise_imem (s : State) (f : ExpandFault) : (s.expandRaise f).imem = s.imem := by
  unfold State.expandRaise; split <;> rfl
@[simp] theorem State.expandRaise_omem (s : State) (f : ExpandFault) : (s.expandRaise f).omem = s.omem := by
  unfold State.expandRaise; split <;> rfl
@[simp] theorem State.expandRaise_epoch (s : State) (f : ExpandFault) : (s.expandRaise f).epoch = s.epoch := by
  unfold State.expandRaise; split <;> rfl
@[simp] theorem State.expandRaise_script (s : State) (f : ExpandFault) : (s.expandRaise f).script = s.script := by
  unfold State.expandRaise; split <;> rfl
@[simp] theorem State.expandRaise_received (s : State) (f : ExpandFault) : (s.expandRaise f).received = s.received := by
  unfold State.expandRaise; split <;> rfl

/-! ### emitAll: OMEM and OLEN (R97) -/

@[simp] theorem State.emitAll_cfg (s : State) (bs : List Byte) : (s.emitAll bs).cfg = s.cfg := by
  induction bs generalizing s with
  | nil => rfl
  | cons b bs ih => simpa [State.emitAll] using ih (s.emit b)
@[simp] theorem State.emitAll_phase (s : State) (bs : List Byte) : (s.emitAll bs).phase = s.phase := by
  induction bs generalizing s with
  | nil => rfl
  | cons b bs ih => simpa [State.emitAll] using ih (s.emit b)
@[simp] theorem State.emitAll_mode (s : State) (bs : List Byte) : (s.emitAll bs).mode = s.mode := by
  induction bs generalizing s with
  | nil => rfl
  | cons b bs ih => simpa [State.emitAll] using ih (s.emit b)
@[simp] theorem State.emitAll_rc (s : State) (bs : List Byte) : (s.emitAll bs).rc = s.rc := by
  induction bs generalizing s with
  | nil => rfl
  | cons b bs ih => simpa [State.emitAll] using ih (s.emit b)
@[simp] theorem State.emitAll_buf (s : State) (bs : List Byte) : (s.emitAll bs).buf = s.buf := by
  induction bs generalizing s with
  | nil => rfl
  | cons b bs ih => simpa [State.emitAll] using ih (s.emit b)
@[simp] theorem State.emitAll_blen (s : State) (bs : List Byte) : (s.emitAll bs).blen = s.blen := by
  induction bs generalizing s with
  | nil => rfl
  | cons b bs ih => simpa [State.emitAll] using ih (s.emit b)
@[simp] theorem State.emitAll_pos (s : State) (bs : List Byte) : (s.emitAll bs).pos = s.pos := by
  induction bs generalizing s with
  | nil => rfl
  | cons b bs ih => simpa [State.emitAll] using ih (s.emit b)
@[simp] theorem State.emitAll_chunkLen (s : State) (bs : List Byte) : (s.emitAll bs).chunkLen = s.chunkLen := by
  induction bs generalizing s with
  | nil => rfl
  | cons b bs ih => simpa [State.emitAll] using ih (s.emit b)
@[simp] theorem State.emitAll_done (s : State) (bs : List Byte) : (s.emitAll bs).done = s.done := by
  induction bs generalizing s with
  | nil => rfl
  | cons b bs ih => simpa [State.emitAll] using ih (s.emit b)
@[simp] theorem State.emitAll_fault (s : State) (bs : List Byte) : (s.emitAll bs).fault = s.fault := by
  induction bs generalizing s with
  | nil => rfl
  | cons b bs ih => simpa [State.emitAll] using ih (s.emit b)
@[simp] theorem State.emitAll_fcode (s : State) (bs : List Byte) : (s.emitAll bs).fcode = s.fcode := by
  induction bs generalizing s with
  | nil => rfl
  | cons b bs ih => simpa [State.emitAll] using ih (s.emit b)
@[simp] theorem State.emitAll_lenReg (s : State) (bs : List Byte) : (s.emitAll bs).lenReg = s.lenReg := by
  induction bs generalizing s with
  | nil => rfl
  | cons b bs ih => simpa [State.emitAll] using ih (s.emit b)
@[simp] theorem State.emitAll_imem (s : State) (bs : List Byte) : (s.emitAll bs).imem = s.imem := by
  induction bs generalizing s with
  | nil => rfl
  | cons b bs ih => simpa [State.emitAll] using ih (s.emit b)
@[simp] theorem State.emitAll_epoch (s : State) (bs : List Byte) : (s.emitAll bs).epoch = s.epoch := by
  induction bs generalizing s with
  | nil => rfl
  | cons b bs ih => simpa [State.emitAll] using ih (s.emit b)
@[simp] theorem State.emitAll_script (s : State) (bs : List Byte) : (s.emitAll bs).script = s.script := by
  induction bs generalizing s with
  | nil => rfl
  | cons b bs ih => simpa [State.emitAll] using ih (s.emit b)
@[simp] theorem State.emitAll_received (s : State) (bs : List Byte) : (s.emitAll bs).received = s.received := by
  induction bs generalizing s with
  | nil => rfl
  | cons b bs ih => simpa [State.emitAll] using ih (s.emit b)
@[simp] theorem State.emitAll_reader (s : State) (bs : List Byte) : (s.emitAll bs).reader = s.reader := by
  induction bs generalizing s with
  | nil => rfl
  | cons b bs ih => simpa [State.emitAll] using ih (s.emit b)
@[simp] theorem State.emitAll_olen (s : State) (bs : List Byte) : (s.emitAll bs).olen = s.olen + bs.length := by
  induction bs generalizing s with
  | nil => rfl
  | cons b bs ih => simp [State.emitAll, ih]; omega

/-- Emitting writes OMEM and OLEN and nothing else (R91). -/
theorem State.emitAll_eq (s : State) (bs : List Byte) :
    s.emitAll bs = { s with omem := (s.emitAll bs).omem, olen := (s.emitAll bs).olen } := by
  induction bs generalizing s with
  | nil => rfl
  | cons b bs ih => simpa [State.emitAll] using ih (s.emit b)

/-- The bytes emitted depend on OMEM and OLEN only. -/
theorem State.emitAll_omem_congr {s t : State} (h : t.omem = s.omem) (ho : t.olen = s.olen) (bs : List Byte) :
    (t.emitAll bs).omem = (s.emitAll bs).omem := by
  induction bs generalizing s t with
  | nil => exact h
  | cons b bs ih => exact ih (by simp [h, ho]) (by simp [ho])

/-! ### The reader (R71) -/

theorem State.accept_of_none {s : State} (h : s.reader.fault = none) (bs : List Byte) :
    s.accept bs = { s with reader := { s.reader with expanded := s.reader.expanded ++ bs } } := by
  simp [State.accept, h]

theorem State.accept_of_some {s : State} {f : ExpandFault} (h : s.reader.fault = some f) (bs : List Byte) :
    s.accept bs = s := by
  simp [State.accept, h]

theorem State.expandRaise_of_none {s : State} (h : s.reader.fault = none) (f : ExpandFault) :
    s.expandRaise f = { s with reader := { s.reader with fault := some f } } := by
  simp [State.expandRaise, h]

theorem State.expandRaise_of_some {s : State} {f : ExpandFault} (h : s.reader.fault = some f) (g : ExpandFault) :
    s.expandRaise g = s := by
  simp [State.expandRaise, h]

/-! ### The views that an update leaves alone -/

theorem State.imemByte_congr {s t : State} (h : t.imem = s.imem) (he : t.epoch = s.epoch) (a : Nat) :
    t.imemByte a = s.imemByte a := by
  simp [State.imemByte, h, he]

theorem State.omemByte_congr {s t : State} (h : t.omem = s.omem) (he : t.epoch = s.epoch) (a : Nat) :
    t.omemByte a = s.omemByte a := by
  simp [State.omemByte, h, he]

theorem State.bufByte_congr {s t : State} (h : t.buf = s.buf) (he : t.epoch = s.epoch) (i : Nat) :
    t.bufByte i = s.bufByte i := by
  simp [State.bufByte, h, he]

theorem State.output_congr {s t : State} (h : t.omem = s.omem) (he : t.epoch = s.epoch) (ho : t.olen = s.olen) :
    t.output = s.output := by
  simp [State.output, ho, State.omemByte_congr h he]

theorem State.input_congr {s t : State} (h : t.imem = s.imem) (he : t.epoch = s.epoch) (n : Nat) :
    t.input n = s.input n := by
  simp [State.input, State.imemByte_congr h he]

theorem State.bufBytes_congr {s t : State} (h : t.buf = s.buf) (he : t.epoch = s.epoch) (hb : t.blen = s.blen) :
    t.bufBytes = s.bufBytes := by
  simp [State.bufBytes, hb, State.bufByte_congr h he]

@[simp] theorem State.output_length (s : State) : s.output.length = s.olen := by simp [State.output]

@[simp] theorem State.input_length (s : State) (n : Nat) : (s.input n).length = n := by simp [State.input]

@[simp] theorem State.bufBytes_length (s : State) : s.bufBytes.length = s.blen.toNat := by simp [State.bufBytes]

theorem State.input_succ (s : State) (n : Nat) : s.input (n + 1) = s.input n ++ [s.imemByte n] := by
  simp [State.input, List.range_succ]

end Sys2Proof.Machine
end

