-- ==== Sys2Proof/Laws/Memory.lean ====
section
/-! SUPPORT. The laws of byte stores: read after write, and every operation keeps the canonical form. -/

namespace Sys2Proof.Machine

theorem Memory.read_write (m : Memory) (a : Nat) (b : Byte) (x : Nat) :
    (Memory.write m a b).read? x = if x = a then some b else m.read? x := by
  induction m with
  | nil => simp [Memory.write, Memory.read?]
  | cons c m ih =>
    obtain ⟨k, v⟩ := c
    unfold Memory.write
    split
    · simp [Memory.read?]
    · split
      · simp [Memory.read?]; grind
      · simp only [Memory.read?, ih]; grind

/-- Where a stored address comes from. -/
theorem Memory.mem_write {m : Memory} {a : Nat} {b : Byte} {c : Host.Cell} (h : c ∈ Memory.write m a b) :
    c = (a, b) ∨ c ∈ m := by
  induction m with
  | nil => simpa [Memory.write] using h
  | cons d m ih =>
    obtain ⟨k, v⟩ := d
    unfold Memory.write at h
    split at h
    · simpa using h
    · split at h
      · simp at h; grind
      · simp at h; grind

theorem Memory.write_wf {m : Memory} (h : m.wf) (a : Nat) (b : Byte) : (Memory.write m a b).wf := by
  induction m with
  | nil => simp [Memory.write, Memory.wf]
  | cons c m ih =>
    obtain ⟨k, v⟩ := c
    simp only [Memory.wf, List.pairwise_cons] at h ih ⊢
    unfold Memory.write
    split
    · simp only [List.pairwise_cons]; grind
    · split
      · simp only [List.pairwise_cons]; grind
      · simp only [List.pairwise_cons]
        refine ⟨fun d hd => ?_, ih h.2⟩
        rcases Memory.mem_write hd with rfl | hd
        · simp; omega
        · exact h.1 d hd

theorem State.reset_memory_wf : State.reset.imem.wf ∧ State.reset.omem.wf ∧ State.reset.buf.wf := by
  simp [State.reset, Memory.wf]

/-- Every store of the state keeps its canonical form through each operation that writes one. -/
theorem State.emit_omem_wf {s : State} (h : s.omem.wf) (b : Byte) : (s.emit b).omem.wf := Memory.write_wf h _ _

theorem State.emitAll_omem_wf {s : State} (h : s.omem.wf) (bs : List Byte) : (s.emitAll bs).omem.wf := by
  induction bs generalizing s with
  | nil => exact h
  | cons b bs ih => exact ih (State.emit_omem_wf h b)

theorem State.append_buf_wf {s : State} (h : s.buf.wf) (b : Byte) : (s.append b).buf.wf := Memory.write_wf h _ _

/-- The addresses that a packet's bytes list: those listed before, and those from OLEN up. -/
theorem State.mem_emitAll_omem {s : State} {bs : List Byte} {c : Host.Cell} (h : c ∈ (s.emitAll bs).omem) :
    c ∈ s.omem ∨ (s.olen ≤ c.1 ∧ c.1 < s.olen + bs.length) := by
  induction bs generalizing s with
  | nil => exact .inl h
  | cons b bs ih =>
    rcases ih h with h | h
    · rcases Memory.mem_write h with rfl | h
      · right; simp
      · exact .inl h
    · right; simp at h ⊢; omega

theorem State.append_bufByte (s : State) (b : Byte) (i : Nat) :
    (s.append b).bufByte i = if i = s.blen.toNat then b else s.bufByte i := by
  simp only [State.bufByte, State.append_buf, Memory.read_write, State.append_epoch]
  split <;> simp

end Sys2Proof.Machine
end

