-- ==== Sys2Proof/Laws/Emission.lean ====
section
/-! SUPPORT. The packet builder: what Emit, FlushRaw and EmitRepeat can do (43_emission.md R91 to R95). -/

namespace Sys2Proof.Machine

theorem State.emit_omemByte (s : State) (b : Byte) (a : Nat) :
    (s.emit b).omemByte a = if a = s.olen then b else s.omemByte a := by
  simp only [State.omemByte, State.emit_omem, Memory.read_write, State.emit_epoch]
  split <;> simp

theorem State.emit_output (s : State) (b : Byte) : (s.emit b).output = s.output ++ [b] := by
  simp only [State.output, State.emit_olen, List.range_succ, List.map_append, List.map_cons, List.map_nil,
    State.emit_omemByte, if_true]
  congr 1
  refine List.map_congr_left fun a ha => ?_
  rw [State.emit_omemByte, if_neg (by have := List.mem_range.1 ha; omega)]

/-- Emitting bytes appends them to the output and leaves every other byte of OMEM (R40, R97). -/
theorem State.emitAll_appended (s : State) (bs : List Byte) : Appended s (s.emitAll bs) bs := by
  induction bs generalizing s with
  | nil => exact ⟨rfl, by simp [State.emitAll], fun _ _ => rfl⟩
  | cons b bs ih =>
    obtain ⟨h1, h2, h3⟩ := ih (s.emit b)
    refine ⟨by simp [State.emitAll]; omega, ?_, fun a ha => ?_⟩
    · rw [State.emitAll, h2, State.emit_output]; simp
    · rw [State.emitAll, h3 a (by simp at ha ⊢; omega), State.emit_omemByte, if_neg]
      simp at ha; omega

theorem Appended.refl (s : State) : Appended s s [] := ⟨rfl, by simp, fun _ _ => rfl⟩

/-- `Appended` looks at OMEM, OLEN and the free values' index only. -/
theorem Appended.congr {s t s' t' : State} {bs : List Byte} (h : Appended s t bs) (hs : s'.omem = s.omem)
    (hs1 : s'.epoch = s.epoch) (hs2 : s'.olen = s.olen) (ht : t'.omem = t.omem) (ht1 : t'.epoch = t.epoch)
    (ht2 : t'.olen = t.olen) : Appended s' t' bs := by
  obtain ⟨h1, h2, h3⟩ := h
  refine ⟨by omega, ?_, fun a ha => ?_⟩
  · rw [State.output_congr ht ht1 ht2, State.output_congr hs hs1 hs2, h2]
  · rw [State.omemByte_congr ht ht1, State.omemByte_congr hs hs1]; exact h3 a (by omega)

/-- The capacity check (R92): a packet that fits is written whole, one that does not is not written at all. -/
theorem State.emitPacket_spec (s : State) (bs : List Byte) :
    (s.fits bs.length ∧ s.emitPacket bs = some (s.emitAll bs)) ∨ (¬ s.fits bs.length ∧ s.emitPacket bs = none) := by
  unfold State.emitPacket State.fits
  split
  · exact .inr ⟨by omega, rfl⟩
  · exact .inl ⟨by omega, rfl⟩

/-- The bytes FlushRaw writes (R94). -/
def State.flushBytes (s : State) : List Byte := if s.blen = 0#8 then [] else rawControl s.blen :: s.bufBytes

/-- FlushRaw (R94): the packet of the buffered bytes and BLEN = 0, or nothing where there is none, or the overflow. -/
theorem State.flushRaw_spec (s : State) :
    (s.blen = 0#8 ∧ s.flushRaw = some s) ∨
    (s.blen ≠ 0#8 ∧ s.fits (s.blen.toNat + 1) ∧
      s.flushRaw = some { s.emitAll (rawControl s.blen :: s.bufBytes) with blen := 0#8 }) ∨
    (s.blen ≠ 0#8 ∧ ¬ s.fits (s.blen.toNat + 1) ∧ s.flushRaw = none) := by
  unfold State.flushRaw
  split
  · exact .inl ⟨‹_›, rfl⟩
  · rcases s.emitPacket_spec (rawControl s.blen :: s.bufBytes) with ⟨h, e⟩ | ⟨h, e⟩
    · exact .inr (.inl ⟨‹_›, by simpa using h, by rw [e]; rfl⟩)
    · exact .inr (.inr ⟨‹_›, by simpa using h, by rw [e]; rfl⟩)

/-- EmitRepeat (R95): two bytes, or the overflow. -/
theorem State.emitRepeat_spec (s : State) (k : Nat) (v : Byte) :
    (s.fits 2 ∧ s.emitRepeat k v = some (s.emitAll [repeatControl k, v])) ∨ (¬ s.fits 2 ∧ s.emitRepeat k v = none) :=
  s.emitPacket_spec [repeatControl k, v]

/-- The repeat control byte of every count the CORE emits (R93). -/
theorem repeatControl_eq {k : Nat} (h1 : 2 ≤ k) (h2 : k ≤ 128) : repeatControl k = BitVec.ofNat 8 (257 - k) := by
  apply BitVec.eq_of_toNat_eq
  simp only [repeatControl, BitVec.toNat_ofInt, BitVec.toNat_ofNat]
  omega

/-- The raw control byte of a non-empty buffer (R94). -/
theorem rawControl_eq {b : BitVec 8} (h : b ≠ 0#8) : rawControl b = BitVec.ofNat 8 (b.toNat - 1) := by
  have hb : b.toNat ≠ 0 := fun h' => h (BitVec.eq_of_toNat_eq (by simpa using h'))
  apply BitVec.eq_of_toNat_eq
  simp only [rawControl, BitVec.toNat_sub, BitVec.toNat_ofNat]
  omega

end Sys2Proof.Machine
end

