-- ==== Sys2Proof/Laws/Turn.lean ====
section
/-! SUPPORT. What each shared part of a CORE transition and of a turn can do. -/

namespace Sys2Proof.Machine

/-- A CORE transition answers its own effect exactly in a state that has a step and passes the check (R78, R106, R112). -/
theorem State.coreStep_spec (s : State) (body : Outcome) :
    (s.fault = true ∧ s.coreStep body = .fault .stuck) ∨
    (s.fault = false ∧ s.phase = .idle ∧ s.coreStep body = .fault .coreIdle) ∨
    (s.fault = false ∧ s.phase = .run ∧ s.invariantsHold = false ∧ s.coreStep body = .next (s.raise .invariant)) ∨
    (s.fault = false ∧ s.phase = .run ∧ s.invariantsHold = true ∧ s.coreStep body = body) := by
  unfold State.coreStep
  cases hf : s.fault <;> cases hp : s.phase <;> cases hi : s.invariantsHold <;> simp

theorem State.coreStep_ready {s : State} (hp : s.phase = .run) (hf : s.fault = false) (hi : s.invariantsHold = true)
    (body : Outcome) : s.coreStep body = body := by
  simp [State.coreStep, hp, hf, hi]

/-- MemRead of an address that exists (R38). -/
theorem State.memRead_eq {s : State} {a : Nat} (h : a < s.chunkLen) (h' : a < s.cfg.pMaxLen) :
    s.memRead? a = some (s.imemByte a) := by
  simp [State.memRead?, h, h']

/-- What the check of R62 says, as propositions. -/
theorem State.invariantsHold_iff (s : State) :
    s.invariantsHold = true ↔
      s.pos < s.chunkLen ∧
        (s.mode = .raw → s.rc = 0#8 ∧ s.blen.toNat ≤ 127 ∧ s.blen.toNat ≤ s.pos) ∧
        (s.mode = .rep → s.blen = 0#8 ∧ 1 ≤ s.rc.toNat ∧ s.rc.toNat ≤ 127) := by
  unfold State.invariantsHold maxLen
  cases s.mode <;> simp

theorem State.withCursorByte_eq {s : State} (hi : s.invariantsHold = true) (hl : s.chunkLen ≤ s.cfg.pMaxLen)
    (k : Byte → Outcome) : s.withCursorByte k = k (s.imemByte s.pos) := by
  have h := (s.invariantsHold_iff.1 hi).1
  simp [State.withCursorByte, State.memRead_eq h (by omega)]

/-- The cursor's byte, or the fault for an address that does not exist. -/
theorem State.withCursorByte_spec (s : State) (k : Byte → Outcome) :
    s.withCursorByte k = k (s.imemByte s.pos) ∨ s.withCursorByte k = .fault .imemAddress := by
  unfold State.withCursorByte State.memRead?
  split
  · rename_i b h
    split at h
    · exact .inl (by cases h; rfl)
    · cases h
  · exact .inr rfl

/-- A packet written lets the operation go on; an overflow leaves the state before it, with the fault (R92, R105). -/
theorem State.orOverflow_spec (s : State) (w : Option State) (k : State → State) :
    (∃ t, w = some t ∧ s.orOverflow w k = .next (k t)) ∨
      (w = none ∧ s.orOverflow w k = .next (s.raise .outOverflow)) := by
  cases w with
  | some t => exact .inl ⟨t, rfl, rfl⟩
  | none => exact .inr ⟨rfl, rfl⟩

/-- The decoded selector, as the case split of R61 over the state. -/
theorem decodeSelector_bits (fin mode eq sat : Bool) :
    decodeSelector (BitVec.ofBool fin ++ BitVec.ofBool mode ++ BitVec.ofBool eq ++ BitVec.ofBool sat) =
      if fin then (if mode then .finRep else .finRaw)
      else if mode then (if eq then (if sat then .scanRepEqSat else .scanRepEq) else .scanRepNe)
      else if eq then .scanRawEq else if sat then .scanRawNeFull else .scanRawNe := by
  cases fin <;> cases mode <;> cases eq <;> cases sat <;> decide

/-- The selector exists wherever the cursor stands on a chunk that IMEM holds (R37). -/
theorem State.selector_eq {s : State} (hp : s.pos < s.chunkLen) (hl : s.chunkLen ≤ s.cfg.pMaxLen) :
    s.selector? = some (BitVec.ofBool s.fin ++ BitVec.ofBool s.mode.bit ++
      BitVec.ofBool (!s.fin && (s.imemByte s.pos == s.imemByte (s.pos + 1))) ++ BitVec.ofBool s.sat) := by
  unfold State.selector? State.eq?
  by_cases hf : s.fin = true
  · simp [hf]
  · have hlt : s.pos + 1 < s.chunkLen := by
      have : s.pos + 1 ≠ s.chunkLen := by simpa [State.fin] using hf
      omega
    simp [hf, State.memRead_eq hp (by omega), State.memRead_eq hlt (by omega)]

/-- With nothing pending for the host, a CORE that has a step takes it (R78, R121). -/
theorem State.turn_core {s : State} (hs : s.script = []) (he : s.coreEnabled = true) : s.turn = s.coreTurn := by
  simp [State.turn, hs, he]

/-- Which turn it is (R121). -/
theorem State.turn_cases (s : State) :
    (s.script = [] ∧ s.coreEnabled = true ∧ s.turn = s.coreTurn) ∨
    (s.script = [] ∧ s.coreEnabled = false ∧ s.fault = true ∧ s.turn = .fault .stuck) ∨
    (s.script = [] ∧ s.coreEnabled = false ∧ s.fault = false ∧ s.turn = .next s) ∨
    (∃ m rest, s.script = m :: rest ∧ s.coreEnabled = true ∧ 0 < m.after ∧
      s.turn = State.coreTurn { s with script := { m with after := m.after - 1 } :: rest }) ∨
    (∃ m rest, s.script = m :: rest ∧ s.waiting m.act = true ∧ s.coreEnabled = true ∧ s.turn = s.coreTurn) ∨
    (∃ m rest, s.script = m :: rest ∧ s.waiting m.act = true ∧ s.coreEnabled = false ∧ s.turn = .next s) ∨
    (∃ m rest, s.script = m :: rest ∧ s.waiting m.act = false ∧ (s.coreEnabled = true → m.after = 0) ∧
      s.turn = State.hostAct { s with script := rest } m.act) := by
  unfold State.turn
  cases hs : s.script with
  | nil => cases s.coreEnabled <;> cases s.fault <;> simp
  | cons m rest =>
    cases he : s.coreEnabled <;> cases hw : s.waiting m.act <;> by_cases ha : 0 < m.after <;> (simp [hw, ha]; try grind)

end Sys2Proof.Machine
end

