-- ==== Sys2Proof/Laws/Expand.lean ====
section
/-! SUPPORT. Expand as the spec writes it (40_packets.md R71), free of fuel, and Expand of packets laid end to end. -/

namespace Sys2Proof.Machine

/-- More fuel than bytes changes nothing. -/
theorem expandFuel_eq {k k' : Nat} {bytes : List Byte} (h : bytes.length ≤ k) (h' : bytes.length ≤ k') :
    expandFuel k bytes = expandFuel k' bytes := by
  induction k generalizing k' bytes with
  | zero =>
    have : bytes = [] := List.eq_nil_of_length_eq_zero (by omega)
    subst this
    simp [expandFuel]
  | succ k ih =>
    cases bytes with
    | nil => simp [expandFuel]
    | cons c rest =>
      cases k' with
      | zero => simp at h'
      | succ k' =>
        simp only [List.length_cons] at h h'
        simp only [expandFuel]
        split
        · split
          · rfl
          · rw [ih (k' := k') (by simp; omega) (by simp; omega)]
        · split
          · rfl
          · cases rest with
            | nil => rfl
            | cons v rest' =>
              simp only [List.length_cons] at h h'
              simp only
              rw [ih (k' := k') (by omega) (by omega)]

theorem expand_nil : expand [] = .ok [] := rfl

/-- The raw clause of R71. -/
theorem expand_raw {c : Byte} {rest : List Byte} (hc : c.msb = false) :
    expand (c :: rest) =
      if rest.length < (c.extractLsb' 0 7).toNat + 1 then .error .truncated
      else (expand (rest.drop ((c.extractLsb' 0 7).toNat + 1))).map (rest.take ((c.extractLsb' 0 7).toNat + 1) ++ ·) := by
  simp only [expand, List.length_cons, expandFuel, hc, if_true]
  split
  · rfl
  · rw [expandFuel_eq (k' := (rest.drop ((c.extractLsb' 0 7).toNat + 1)).length) (by simp) (by simp)]

/-- The reserved clause of R71. -/
theorem expand_reserved (rest : List Byte) : expand (0x80#8 :: rest) = .error .reservedControl := by
  simp only [expand, List.length_cons, expandFuel]
  rw [if_neg (by decide), if_pos trivial]

/-- The repeat clause of R71. -/
theorem expand_repeat {c v : Byte} {rest : List Byte} (hc : c.msb = true) (hc' : c ≠ 0x80#8) :
    expand (c :: v :: rest) = (expand rest).map (List.replicate (257 - c.toNat) v ++ ·) := by
  simp only [expand, List.length_cons, expandFuel, hc, hc', if_false, Bool.true_eq_false]
  rw [expandFuel_eq (k' := rest.length) (by simp) (by simp)]

theorem expand_repeat_short {c : Byte} (hc : c.msb = true) (hc' : c ≠ 0x80#8) : expand [c] = .error .truncated := by
  simp [expand, expandFuel, hc, hc']

/-- Expand of two series of packets laid end to end (R53, R97). -/
theorem expand_append {a b w v : List Byte} (ha : expand a = .ok w) (hb : expand b = .ok v) :
    expand (a ++ b) = .ok (w ++ v) := by
  generalize hn : a.length = n
  induction n using Nat.strongRecOn generalizing a w with
  | _ n ih =>
    cases a with
    | nil => cases ha; exact hb
    | cons c rest =>
      by_cases hr : c = 0x80#8
      · subst hr; rw [expand_reserved] at ha; cases ha
      cases hc : c.msb with
      | false =>
        rw [expand_raw hc] at ha
        split at ha
        · cases ha
        · rename_i hl
          cases he : expand (rest.drop ((c.extractLsb' 0 7).toNat + 1)) with
          | error f => rw [he] at ha; cases ha
          | ok x =>
            rw [he] at ha
            cases ha
            have := ih _ (by simp at hn ⊢; omega) he rfl
            rw [List.cons_append, expand_raw hc, if_neg (by simp only [List.length_append]; omega), List.drop_append_of_le_length (by omega),
              this, List.take_append_of_le_length (by omega)]
            simp [Except.map]
      | true =>
        cases rest with
        | nil => rw [expand_repeat_short hc hr] at ha; cases ha
        | cons v' rest =>
          rw [expand_repeat hc hr] at ha
          cases he : expand rest with
          | error f => rw [he] at ha; cases ha
          | ok x =>
            rw [he] at ha
            cases ha
            have := ih _ (by simp at hn ⊢; omega) he rfl
            rw [List.cons_append, List.cons_append, expand_repeat hc hr, this]
            simp [Except.map]

/-- A raw packet of at most 128 literals means its literals (R54, R69). -/
theorem expand_rawBytes {lits : List Byte} (h : lits.length ≤ 128) : expand (rawBytes lits) = .ok lits := by
  unfold rawBytes
  split
  · subst_vars; rfl
  · rename_i hne
    have h0 : lits.length ≠ 0 := fun h => hne (List.eq_nil_of_length_eq_zero h)
    have hm : (BitVec.ofNat 8 (lits.length - 1)).msb = false := by
      rw [BitVec.msb_eq_decide]; simp; omega
    have he : ((BitVec.ofNat 8 (lits.length - 1)).extractLsb' 0 7).toNat + 1 = lits.length := by
      rw [BitVec.extractLsb'_toNat]; simp; omega
    rw [expand_raw hm, he, if_neg (by omega)]
    simp [expand_nil, Except.map]

/-- A repeat packet of 2 to 128 copies means its copies (R55, R70). -/
theorem expand_repBytes {k : Nat} (h1 : 2 ≤ k) (h2 : k ≤ 128) (v : Byte) :
    expand (repBytes k v) = .ok (List.replicate k v) := by
  have hm : (BitVec.ofNat 8 (257 - k)).msb = true := by
    rw [BitVec.msb_eq_decide]; simp; omega
  have hr : BitVec.ofNat 8 (257 - k) ≠ 0x80#8 := by
    intro h; have := congrArg BitVec.toNat h; simp at this; omega
  rw [repBytes, expand_repeat hm hr, expand_nil]
  have : 257 - (BitVec.ofNat 8 (257 - k)).toNat = k := by simp; omega
  rw [this]
  simp [Except.map]

end Sys2Proof.Machine
end

