-- ==== Sys2Proof/Laws/Decode.lean ====
section
/-! SUPPORT. The control byte's two halves, and decodePacket clause by clause (30_encoding.md R54 to R58). -/

namespace Sys2Proof

theorem rawByte_msb (n : BitVec 7) : (0#1 ++ n : BitVec 8).msb = false := by revert n; decide

theorem rawByte_operand (n : BitVec 7) : (0#1 ++ n : BitVec 8).extractLsb' 0 7 = n := by revert n; decide

theorem repByte_msb (m : BitVec 7) : (1#1 ++ m : BitVec 8).msb = true := by revert m; decide

theorem repByte_operand (m : BitVec 7) : (1#1 ++ m : BitVec 8).extractLsb' 0 7 = m := by revert m; decide

theorem repByte_ne (m : BitVec 7) : m ≠ 0 → (1#1 ++ m : BitVec 8) ≠ 0x80#8 := by revert m; decide

theorem rawByte_of_msb (c : Byte) : c.msb = false → (0#1 ++ c.extractLsb' 0 7 : BitVec 8) = c := by revert c; decide

theorem repByte_of_msb (c : Byte) : c.msb = true → (1#1 ++ c.extractLsb' 0 7 : BitVec 8) = c := by revert c; decide

theorem repByte_operand_ne (c : Byte) : c.msb = true → c ≠ 0x80#8 → c.extractLsb' 0 7 ≠ 0 := by revert c; decide

theorem rawByte_toNat (c : Byte) : c.msb = false → (c.extractLsb' 0 7).toNat = c.toNat := by revert c; decide

theorem msb_of_gt (c : Byte) : 0x80 < c.toNat → c.msb = true ∧ c ≠ 0x80#8 := by revert c; decide

theorem decodePacket_raw {c : Byte} (hc : c.msb = false) (rest : List Byte) :
    decodePacket (c :: rest) =
      if rest.length < (c.extractLsb' 0 7).toNat + 1 then .error .truncated
      else .ok (.pktRaw (c.extractLsb' 0 7) (rest.take ((c.extractLsb' 0 7).toNat + 1)),
        rest.drop ((c.extractLsb' 0 7).toNat + 1)) := by
  simp only [decodePacket, hc, if_true]

theorem decodePacket_reserved (rest : List Byte) : decodePacket (0x80#8 :: rest) = .ok (.pktReserved, rest) := by
  simp only [decodePacket]
  rw [if_neg (by decide)]
  rfl

theorem decodePacket_repeat {c : Byte} (hc : c.msb = true) (hc' : c ≠ 0x80#8) (v : Byte) (rest : List Byte) :
    decodePacket (c :: v :: rest) = .ok (.pktRepeat (c.extractLsb' 0 7) v, rest) := by
  simp [decodePacket, hc, hc']

theorem decodePacket_repeat_short {c : Byte} (hc : c.msb = true) (hc' : c ≠ 0x80#8) :
    decodePacket [c] = .error .truncated := by
  simp [decodePacket, hc, hc']

/-- A control byte is raw, reserved or repeat (R56). -/
theorem controlByte_cases (c : Byte) : c.msb = false ∨ c = 0x80#8 ∨ (c.msb = true ∧ c ≠ 0x80#8) := by
  by_cases h : c = 0x80#8
  · exact .inr (.inl h)
  · cases hc : c.msb
    · exact .inl rfl
    · exact .inr (.inr ⟨rfl, h⟩)

end Sys2Proof
end

