-- ==== Sys2Proof/Laws/Transitions.lean ====
section
/-! SUPPORT. What each CORE transition can answer as a next state, said once: the fault INVARIANT, the fault OUT_OVERFLOW, or
its effect with the bytes it writes (41_scan.md R79 to R84, 42_finalize.md R87, R88). -/

namespace Sys2Proof.Machine

/-- The next states of a transition that writes the packet `bs` and then makes the update `upd`. -/
def TransitionNext (s t : State) (bs : List Byte) (upd : State → State) : Prop :=
  s.fault = false ∧ s.phase = .run ∧
    ((s.invariantsHold = false ∧ t = s.raise .invariant) ∨
      (s.invariantsHold = true ∧ bs ≠ [] ∧ ¬ s.fits bs.length ∧ t = s.raise .outOverflow) ∨
      (s.invariantsHold = true ∧ (bs ≠ [] → s.fits bs.length) ∧ t = upd (s.emitAll bs)))

/-- A transition's body decides its next states once the common part has passed. -/
theorem TransitionNext.of_coreStep {s t : State} {body : Outcome} {bs : List Byte} {upd : State → State}
    (h : s.coreStep body = .next t)
    (hb : s.invariantsHold = true → body = .next t →
      (bs ≠ [] ∧ ¬ s.fits bs.length ∧ t = s.raise .outOverflow) ∨
        ((bs ≠ [] → s.fits bs.length) ∧ t = upd (s.emitAll bs))) : TransitionNext s t bs upd := by
  rcases s.coreStep_spec body with ⟨_, e⟩ | ⟨_, _, e⟩ | ⟨hf, hp, hi, e⟩ | ⟨hf, hp, hi, e⟩ <;> rw [e] at h
  · cases h
  · cases h
  · cases h; exact ⟨hf, hp, .inl ⟨hi, rfl⟩⟩
  · rcases hb hi h with ⟨h1, h2, h3⟩ | ⟨h1, h2⟩
    · exact ⟨hf, hp, .inr (.inl ⟨hi, h1, h2, h3⟩)⟩
    · exact ⟨hf, hp, .inr (.inr ⟨hi, h1, h2⟩)⟩

theorem State.withCursorByte_next {s t : State} {k : Byte → Outcome} (h : s.withCursorByte k = .next t) :
    k (s.imemByte s.pos) = .next t := by
  rcases s.withCursorByte_spec k with e | e
  · rwa [e] at h
  · rw [e] at h; cases h

theorem State.bufBytes_eq_nil {s : State} (h : s.blen = 0#8) : s.bufBytes = [] := by simp [State.bufBytes, h]

theorem State.bufBytes_ne_nil {s : State} (h : s.blen ≠ 0#8) : s.bufBytes ≠ [] := by
  intro h'
  have := congrArg List.length h'
  simp only [State.bufBytes_length, List.length_nil] at this
  exact h (BitVec.eq_of_toNat_eq (by simpa using this))

/-- The raw packet of the buffer, in the words of R54. -/
theorem State.rawBytes_bufBytes {s : State} (h : s.blen ≠ 0#8) :
    rawBytes s.bufBytes = rawControl s.blen :: s.bufBytes := by
  rw [rawBytes, if_neg (State.bufBytes_ne_nil h), State.bufBytes_length, rawControl_eq h]

theorem State.append_bufBytes {s : State} (h : s.blen.toNat ≤ 127) (b : Byte) :
    (s.append b).bufBytes = s.bufBytes ++ [b] := by
  have hb : (s.append b).blen.toNat = s.blen.toNat + 1 := by simp; omega
  simp only [State.bufBytes, hb, List.range_succ, List.map_append, List.map_cons, List.map_nil, State.append_bufByte,
    if_true]
  congr 1
  refine List.map_congr_left fun a ha => ?_
  rw [State.append_bufByte, if_neg (by have := List.mem_range.1 ha; omega)]

/-- FlushRaw within a transition (R94): the raw packet of the buffer. -/
theorem State.orOverflow_flushRaw {s t : State} {k : State → State} (h : s.orOverflow s.flushRaw k = .next t) :
    (rawBytes s.bufBytes ≠ [] ∧ ¬ s.fits (rawBytes s.bufBytes).length ∧ t = s.raise .outOverflow) ∨
      ((rawBytes s.bufBytes ≠ [] → s.fits (rawBytes s.bufBytes).length) ∧
        t = k { s.emitAll (rawBytes s.bufBytes) with blen := 0#8 }) := by
  rcases s.flushRaw_spec with ⟨hb, e⟩ | ⟨hb, hf, e⟩ | ⟨hb, hf, e⟩ <;> rw [e] at h
  · have hs : ({ s.emitAll [] with blen := 0#8 } : State) = s := by rw [← hb]; rfl
    rw [State.bufBytes_eq_nil hb]
    right
    refine ⟨fun h => absurd rfl h, ?_⟩
    rw [show rawBytes [] = [] from rfl, hs]
    simpa [State.orOverflow] using h.symm
  · rw [State.rawBytes_bufBytes hb]
    exact .inr ⟨fun _ => by simpa using hf, by simpa [State.orOverflow] using h.symm⟩
  · rw [State.rawBytes_bufBytes hb]
    exact .inl ⟨by simp, by simpa using hf, by simpa [State.orOverflow] using h.symm⟩

/-- EmitRepeat within a transition (R95). -/
theorem State.orOverflow_emitRepeat {s t : State} {n : Nat} {v : Byte} {k : State → State}
    (h : s.orOverflow (s.emitRepeat n v) k = .next t) :
    ([repeatControl n, v] ≠ [] ∧ ¬ s.fits [repeatControl n, v].length ∧ t = s.raise .outOverflow) ∨
      (([repeatControl n, v] ≠ [] → s.fits [repeatControl n, v].length) ∧ t = k (s.emitAll [repeatControl n, v])) := by
  rcases s.emitRepeat_spec n v with ⟨hf, e⟩ | ⟨hf, e⟩ <;> rw [e] at h
  · exact .inr ⟨fun _ => hf, by simpa [State.orOverflow] using h.symm⟩
  · exact .inl ⟨by simp, hf, by simpa [State.orOverflow] using h.symm⟩

theorem exec_scanRawEq_next {s t : State} (h : exec .scanRawEq s = .next t) :
    TransitionNext s t (rawBytes s.bufBytes) fun u =>
      { u with mode := .rep, rc := 1#8, blen := 0#8, pos := s.pos + 1 } := by
  refine .of_coreStep h fun _ h => ?_
  rcases State.orOverflow_flushRaw h with h | ⟨h1, h2⟩
  · exact .inl h
  · exact .inr ⟨h1, by rw [h2]; simp⟩

theorem exec_scanRawNe_next {s t : State} (h : exec .scanRawNe s = .next t) :
    TransitionNext s t [] fun u =>
      { u with buf := s.buf.write s.blen.toNat (s.imemByte s.pos), blen := s.blen + 1#8, pos := s.pos + 1 } := by
  refine .of_coreStep h fun _ h => ?_
  have h := State.withCursorByte_next h
  cases h
  exact .inr ⟨fun h => absurd rfl h, rfl⟩

theorem exec_scanRawNeFull_next {s t : State} (h : exec .scanRawNeFull s = .next t) :
    TransitionNext s t (rawBytes s.bufBytes) fun u =>
      { u with buf := s.buf.write 0 (s.imemByte s.pos), blen := 1#8, pos := s.pos + 1 } := by
  refine .of_coreStep h fun _ h => ?_
  rcases State.orOverflow_flushRaw (State.withCursorByte_next h) with h | ⟨h1, h2⟩
  · exact .inl h
  · exact .inr ⟨h1, by rw [h2]; simp⟩

theorem exec_scanRepEq_next {s t : State} (h : exec .scanRepEq s = .next t) :
    TransitionNext s t [] fun u => { u with rc := s.rc + 1#8, pos := s.pos + 1 } := by
  refine .of_coreStep h fun _ h => ?_
  cases h
  exact .inr ⟨fun h => absurd rfl h, rfl⟩

theorem exec_scanRepEqSat_next {s t : State} (h : exec .scanRepEqSat s = .next t) :
    TransitionNext s t (repBytes 127 (s.imemByte s.pos)) fun u => { u with rc := 1#8, pos := s.pos + 1 } := by
  refine .of_coreStep h fun _ h => ?_
  rcases State.orOverflow_emitRepeat (State.withCursorByte_next h) with h | ⟨h1, h2⟩
  · exact .inl h
  · exact .inr ⟨h1, by rw [h2]; simp; exact ⟨rfl, rfl⟩⟩

/-- The count of SCAN_REP_NE and FIN_REP, where the check has passed: 2 to 128 in REPEAT, 1 in RAW (R62). -/
theorem State.repeatControl_rc {s : State} (hi : s.invariantsHold = true) (v : Byte) :
    [repeatControl (s.rc.toNat + 1), v] = if s.mode = .rep then repBytes (s.rc.toNat + 1) v else [0#8, v] := by
  obtain ⟨_, hr, hp⟩ := s.invariantsHold_iff.1 hi
  cases hm : s.mode with
  | raw => rw [(hr hm).1]; rfl
  | rep =>
    have := hp hm
    rw [repeatControl_eq (by omega) (by omega)]; rfl

theorem exec_scanRepNe_next {s t : State} (h : exec .scanRepNe s = .next t) :
    TransitionNext s t [repeatControl (s.rc.toNat + 1), s.imemByte s.pos] fun u =>
      { u with mode := .raw, rc := 0#8, pos := s.pos + 1 } := by
  refine .of_coreStep h fun _ h => ?_
  rcases State.orOverflow_emitRepeat (State.withCursorByte_next h) with h | ⟨h1, h2⟩
  · exact .inl h
  · exact .inr ⟨h1, by rw [h2]; simp⟩

theorem exec_finRep_next {s t : State} (h : exec .finRep s = .next t) :
    TransitionNext s t [repeatControl (s.rc.toNat + 1), s.imemByte s.pos] fun u =>
      { u with rc := s.rc + 1#8, phase := .idle, done := true } := by
  refine .of_coreStep h fun _ h => ?_
  rcases State.orOverflow_emitRepeat (State.withCursorByte_next h) with h | ⟨h1, h2⟩
  · exact .inl h
  · exact .inr ⟨h1, by rw [h2]⟩

theorem State.invariantsHold_blen {s : State} (hi : s.invariantsHold = true) : s.blen.toNat ≤ 127 := by
  obtain ⟨_, hr, hp⟩ := s.invariantsHold_iff.1 hi
  cases hm : s.mode with
  | raw => exact (hr hm).2.1
  | rep => rw [(hp hm).1]; simp

theorem State.orOverflow_raise_next {s t u : State} {k : State → State} (h : s.orOverflow u.flushRaw k = .next t)
    (hu : u.cfg = s.cfg) (ho : u.olen = s.olen) :
    (rawBytes u.bufBytes ≠ [] ∧ ¬ s.fits (rawBytes u.bufBytes).length ∧ t = s.raise .outOverflow) ∨
      ((rawBytes u.bufBytes ≠ [] → s.fits (rawBytes u.bufBytes).length) ∧
        t = k { u.emitAll (rawBytes u.bufBytes) with blen := 0#8 }) := by
  have hfit : ∀ n, u.fits n ↔ s.fits n := fun n => by simp [State.fits, hu, ho]
  cases hw : u.flushRaw with
  | none =>
    have h' : u.orOverflow u.flushRaw k = .next (u.raise .outOverflow) := by rw [hw]; rfl
    rw [hw] at h
    rcases State.orOverflow_flushRaw h' with ⟨h1, h2, _⟩ | ⟨h1, h2⟩
    · exact .inl ⟨h1, by rwa [← hfit], by simpa [State.orOverflow] using h.symm⟩
    · rcases u.flushRaw_spec with ⟨_, e⟩ | ⟨_, _, e⟩ | ⟨hb, hf, e⟩
      · rw [hw] at e; cases e
      · rw [hw] at e; cases e
      · rw [State.rawBytes_bufBytes hb] at h1
        exact absurd (h1 (by simp)) (by simpa using hf)
  | some w =>
    have h' : u.orOverflow u.flushRaw k = .next t := by rw [hw] at h ⊢; exact h
    rcases State.orOverflow_flushRaw h' with ⟨h1, h2, _⟩ | ⟨h1, h2⟩
    · rcases u.flushRaw_spec with ⟨hb, e⟩ | ⟨hb, hf, e⟩ | ⟨_, _, e⟩
      · rw [State.bufBytes_eq_nil hb] at h1; exact absurd rfl h1
      · rw [State.rawBytes_bufBytes hb] at h2; exact absurd (by simpa using hf) h2
      · rw [hw] at e; cases e
    · exact .inr ⟨fun h => (hfit _).1 (h1 h), h2⟩

theorem exec_finRaw_next {s t : State} (h : exec .finRaw s = .next t) :
    TransitionNext s t (rawBytes (s.bufBytes ++ [s.imemByte s.pos])) fun u =>
      { u with buf := s.buf.write s.blen.toNat (s.imemByte s.pos), blen := 0#8, phase := .idle, done := true } := by
  refine .of_coreStep h fun hi h => ?_
  have h := State.orOverflow_raise_next (State.withCursorByte_next h) rfl rfl
  rw [State.append_bufBytes (State.invariantsHold_blen hi)] at h
  rcases h with h | ⟨h1, h2⟩
  · exact .inl h
  · refine .inr ⟨h1, ?_⟩
    rw [h2, State.emitAll_eq s, State.emitAll_eq (s.append _)]
    rw [State.emitAll_omem_congr (s := s) (t := s.append (s.imemByte s.pos)) rfl rfl]
    simp

/-- EQ where it exists (R25). -/
theorem State.eq_of_some {s : State} {eq : Bool} (h : s.eq? = some eq) :
    eq = (!s.fin && (s.imemByte s.pos == s.imemByte (s.pos + 1))) := by
  unfold State.eq? at h
  by_cases hf : s.fin = true
  · simpa [hf] using h.symm
  · rw [if_neg hf] at h
    unfold State.memRead? at h
    split at h
    · rename_i b b' hb hb'
      split at hb
      · split at hb'
        · cases hb; cases hb'; cases h; simp [hf]
        · cases hb'
      · cases hb
    · cases h

/-- The transition that the predicates of a state select (R61). -/
def State.selected (s : State) : Instr :=
  if s.fin then (if s.mode.bit then .finRep else .finRaw)
  else if s.mode.bit then
    (if s.imemByte s.pos = s.imemByte (s.pos + 1) then (if s.sat then .scanRepEqSat else .scanRepEq) else .scanRepNe)
  else if s.imemByte s.pos = s.imemByte (s.pos + 1) then .scanRawEq
  else if s.sat then .scanRawNeFull else .scanRawNe

theorem State.selected_eq (s : State) :
    decodeSelector (BitVec.ofBool s.fin ++ BitVec.ofBool s.mode.bit ++
      BitVec.ofBool (!s.fin && (s.imemByte s.pos == s.imemByte (s.pos + 1))) ++ BitVec.ofBool s.sat) = s.selected := by
  rw [decodeSelector_bits]
  unfold State.selected
  cases s.fin <;> simp

/-- The next states of the CORE's step (R78): INVARIANT, or the selected transition. -/
theorem State.coreTurn_next {s t : State} (h : s.coreTurn = .next t) :
    (s.invariantsHold = false ∧ t = s.raise .invariant) ∨ (s.invariantsHold = true ∧ exec s.selected s = .next t) := by
  unfold State.coreTurn at h
  split at h
  · rename_i hi
    refine .inr ⟨hi, ?_⟩
    split at h
    · rename_i sel hs
      unfold State.selector? at hs
      cases he : s.eq? with
      | none => rw [he] at hs; cases hs
      | some eq =>
        rw [he] at hs
        cases hs
        rw [State.eq_of_some he, State.selected_eq] at h
        exact h
    · cases h
  · rename_i hi
    exact .inl ⟨by simpa using hi, by cases h; rfl⟩

/-- The CORE's step where IMEM holds the chunk (R78, R37). -/
theorem State.coreTurn_eq {s : State} (hi : s.invariantsHold = true) (hl : s.chunkLen ≤ s.cfg.pMaxLen) :
    s.coreTurn = exec s.selected s := by
  unfold State.coreTurn
  rw [if_pos hi, State.selector_eq (s.invariantsHold_iff.1 hi).1 hl]
  simp only [State.selected_eq]

end Sys2Proof.Machine
end

