-- ==== Sys2Proof/Laws/PerInstr.lean ====
section
/-! SUPPORT. Statements made once per instruction: the code of a well-formed instruction fits its own row of the opcode
table. -/

namespace Sys2Proof.Laws

/-- The code of `i` is one its table row covers: a packet is as long as its first byte says, or is the reserved byte (R57,
R58); a selector matches the row of `i` and no other (R61); a command word is the one of `i` (R63). -/
def CodeFitsRow.Statement (i : Instr) : Prop :=
  i.wellFormed = true →
    match encode i with
    | .packet bytes => (bytes.head?.bind packetLength = some bytes.length) ∨ (i = .pktReserved ∧ bytes = [0x80#8])
    | .selector sel => selectorMatches sel = [i]
    | .command cmd => decodeCommand cmd = i

theorem CodeFitsRow.pktRaw (n : BitVec 7) (lits : List Byte) : CodeFitsRow.Statement (.pktRaw n lits) := by
  intro h
  simp only [Instr.wellFormed, beq_iff_eq] at h
  refine .inl ?_
  simp only [List.head?_cons, Option.bind_some, packetLength, rawByte_msb, if_true, rawByte_operand, List.length_cons, h]

theorem CodeFitsRow.pktRepeat (m : BitVec 7) (v : Byte) : CodeFitsRow.Statement (.pktRepeat m v) := by
  intro h
  have h : m ≠ 0 := by simpa [Instr.wellFormed] using h
  refine .inl ?_
  simp only [List.head?_cons, Option.bind_some, packetLength, repByte_msb, Bool.true_eq_false, if_false, repByte_ne m h]
  rfl

theorem CodeFitsRow.pktReserved : CodeFitsRow.Statement .pktReserved := fun _ => .inr ⟨rfl, rfl⟩

theorem CodeFitsRow.scanRawNe : CodeFitsRow.Statement .scanRawNe := fun _ => rfl

theorem CodeFitsRow.scanRawNeFull : CodeFitsRow.Statement .scanRawNeFull := fun _ => rfl

theorem CodeFitsRow.scanRawEq : CodeFitsRow.Statement .scanRawEq := fun _ => rfl

theorem CodeFitsRow.scanRepNe : CodeFitsRow.Statement .scanRepNe := fun _ => rfl

theorem CodeFitsRow.scanRepEq : CodeFitsRow.Statement .scanRepEq := fun _ => rfl

theorem CodeFitsRow.scanRepEqSat : CodeFitsRow.Statement .scanRepEqSat := fun _ => rfl

theorem CodeFitsRow.finRaw : CodeFitsRow.Statement .finRaw := fun _ => rfl

theorem CodeFitsRow.finRep : CodeFitsRow.Statement .finRep := fun _ => rfl

theorem CodeFitsRow.nop : CodeFitsRow.Statement .nop := fun _ => rfl

theorem CodeFitsRow.start : CodeFitsRow.Statement .start := fun _ => rfl

theorem CodeFitsRow.cmdReserved : CodeFitsRow.Statement .cmdReserved := fun _ => rfl

theorem CodeFitsRow.reset : CodeFitsRow.Statement .reset := fun _ => rfl

end Sys2Proof.Laws
end

