-- ==== Sys2Proof/Tests/Slice0.lean ====
section
/-! SUPPORT. The model's own tests. Expected results are the spec's: the vectors of 95_test_vectors.md, by their ids, and the
encodings of 30_encoding.md. The witness theorems show states and operands that meet the hypotheses of the statements of
Certificates/Slice0/Obligations.lean, by its name, each clause at a boundary value. -/

namespace Sys2Proof.Tests

open Sys2Proof.Machine

/-! ## Small states -/

/-- Bytes at consecutive addresses. -/
def cells : Nat → List Byte → Memory
  | _, [] => []
  | a, b :: bs => (a, b) :: cells (a + 1) bs

/-- The ramp `i for i < n` of 95_test_vectors.md. -/
def ramp (n : Nat) : List Byte := (List.range n).map (BitVec.ofNat 8)

/-- At rest in a run on a chunk, in the form `MODE, RC, BUF, POS, output` of 95_test_vectors.md. -/
def running (input : List Byte) (mode : Mode) (rc : Nat) (buf : List Byte) (pos : Nat) (out : List Byte) : State :=
  { State.reset with
    phase := .run, mode := mode, rc := BitVec.ofNat 8 rc, blen := BitVec.ofNat 8 buf.length, buf := cells 0 buf
    pos := pos, chunkLen := input.length, imem := cells 0 input, olen := out.length, omem := cells 0 out }

/-- IDLE with a chunk loaded and LEN written. -/
def loaded (input : List Byte) (len : Nat) : State := { State.reset with imem := cells 0 input, lenReg := len }

/-- The same state with another OMEM size. -/
def sized (s : State) (n : Nat) : State := { s with cfg := { s.cfg with pOmemSize := n } }

/-- The same state with a counter the check of R62 rejects in both modes. -/
def broken (s : State) : State := { s with rc := 200#8 }

/-- The same state, faulted. -/
def faulted (s : State) : State := { s with fault := true, fcode := .length }

/-- The same state with one host move pending. -/
def asked (s : State) (after : Nat) (act : HostAct) : State := { s with script := [{ after := after, act := act }] }

/-- The outcome is a next state of which `p` holds. -/
def nextIs (o : Outcome) (p : State → Bool) : Bool :=
  match o with
  | .next t => p t
  | .fault _ => false
  | .refused _ => false

/-! ## Well-formedness: an ill-formed term for each check -/

theorem test_wellFormed_pktRaw_refuses_short : (Instr.pktRaw 2#7 [1#8, 2#8]).wellFormed = false := by decide

theorem test_wellFormed_pktRepeat_refuses_zero : (Instr.pktRepeat 0#7 5#8).wellFormed = false := by decide

theorem test_wellFormed_accepts : (Instr.pktRaw 2#7 [1#8, 2#8, 3#8]).wellFormed = true ∧
    (Instr.pktRepeat 0x7F#7 5#8).wellFormed = true ∧ Instr.scanRawNe.wellFormed = true := by decide

/-! ## Decoding: one word for every constructor, from 30_encoding.md -/

theorem test_decode_pktRaw : decode (.packet [0b00000010#8, 1#8, 2#8, 3#8]) = .ok (.pktRaw 2#7 [1#8, 2#8, 3#8], []) := rfl

theorem test_decode_pktRepeat : decode (.packet [0b11111110#8, 1#8]) = .ok (.pktRepeat 0b1111110#7 1#8, []) := rfl

theorem test_decode_pktReserved : decode (.packet [0b10000000#8]) = .ok (.pktReserved, []) := rfl

theorem test_decode_scanRawNe : decode (.selector 0b0000#4) = .ok (.scanRawNe, []) := rfl

theorem test_decode_scanRawNeFull : decode (.selector 0b0001#4) = .ok (.scanRawNeFull, []) := rfl

theorem test_decode_scanRawEq : decode (.selector 0b0010#4) = .ok (.scanRawEq, []) ∧
    decode (.selector 0b0011#4) = .ok (.scanRawEq, []) := ⟨rfl, rfl⟩

theorem test_decode_scanRepNe : decode (.selector 0b0100#4) = .ok (.scanRepNe, []) ∧
    decode (.selector 0b0101#4) = .ok (.scanRepNe, []) := ⟨rfl, rfl⟩

theorem test_decode_scanRepEq : decode (.selector 0b0110#4) = .ok (.scanRepEq, []) := rfl

theorem test_decode_scanRepEqSat : decode (.selector 0b0111#4) = .ok (.scanRepEqSat, []) := rfl

theorem test_decode_finRaw : decode (.selector 0b1000#4) = .ok (.finRaw, []) ∧
    decode (.selector 0b1011#4) = .ok (.finRaw, []) := ⟨rfl, rfl⟩

theorem test_decode_finRep : decode (.selector 0b1100#4) = .ok (.finRep, []) ∧
    decode (.selector 0b1111#4) = .ok (.finRep, []) := ⟨rfl, rfl⟩

theorem test_decode_nop : decode (.command 0b00#2) = .ok (.nop, []) := rfl

theorem test_decode_start : decode (.command 0b01#2) = .ok (.start, []) := rfl

theorem test_decode_cmdReserved : decode (.command 0b10#2) = .ok (.cmdReserved, []) := rfl

theorem test_decode_reset : decode (.command 0b11#2) = .ok (.reset, []) := rfl

/-- T2.1-8, T2.1-9: packets cut short are rejected by name. -/
theorem test_decode_truncated : decode (.packet [0x02#8, 1#8, 2#8]) = .error .truncated ∧
    decode (.packet [0xFD#8]) = .error .truncated := ⟨rfl, rfl⟩

/-- The packet notation of R66: `REP(3, 0x01)` is `FE 01`. -/
theorem test_packet_notation : packetBytes (.rep 3 1#8) = [0xFE#8, 0x01#8] ∧
    packetBytes (.raw [1#8, 2#8, 3#8]) = [0x02#8, 1#8, 2#8, 3#8] := ⟨rfl, rfl⟩

/-! ## Packets and Expand -/

/-- T2.1-6. -/
theorem test_expand_mixed : expand [0xFE#8, 1#8, 0#8, 2#8, 0xFF#8, 3#8] = .ok [1#8, 1#8, 1#8, 2#8, 3#8, 3#8] := rfl

/-- T2.1-7, T2.1-10. -/
theorem test_expand_reserved : expand [0x80#8, 5#8] = .error .reservedControl ∧
    expand [0#8, 0x42#8, 0x80#8] = .error .reservedControl := ⟨rfl, rfl⟩

/-- R69's example, taken by the reader. -/
theorem test_pktRaw_accepted : nextIs (exec (.pktRaw 2#7 [1#8, 2#8, 3#8]) State.reset)
    (fun t => t.reader.expanded == [1#8, 2#8, 3#8]) = true := by decide

/-- R70's example: `FD 05` means four copies. -/
theorem test_pktRepeat_accepted : nextIs (exec (.pktRepeat 0x7D#7 5#8) State.reset)
    (fun t => t.reader.expanded == [5#8, 5#8, 5#8, 5#8]) = true := by decide

theorem test_pktReserved_faults : nextIs (exec .pktReserved State.reset)
    (fun t => t.reader.fault == some .reservedControl && !t.fault) = true := by decide

/-! ## The transitions: one step each, vectors of sections 2.2 and 2.3 -/

/-- T2.2-1. -/
theorem test_scanRawNe : nextIs (step (running [1#8, 2#8, 3#8] .raw 0 [] 0 []))
    (fun t => t.bufBytes == [1#8] && t.pos == 1 && t.olen == 0) = true := by decide

/-- T2.2-3. -/
theorem test_scanRawNeFull : nextIs (step (running (ramp 129) .raw 0 (ramp 127) 127 []))
    (fun t => t.output == 0x7E#8 :: ramp 127 && t.bufBytes == [0x7F#8] && t.pos == 128) = true := by decide +kernel

/-- T2.2-5. -/
theorem test_scanRawEq : nextIs (step (running [1#8, 2#8, 3#8, 3#8] .raw 0 [1#8, 2#8] 2 []))
    (fun t => t.output == [1#8, 1#8, 2#8] && t.mode == .rep && t.rc == 1#8 && t.blen == 0#8 && t.pos == 3) = true := by
  decide

/-- T2.2-6: SAT is a don't-care. -/
theorem test_scanRawEq_full : nextIs (step (running (ramp 127 ++ [0xEE#8, 0xEE#8]) .raw 0 (ramp 127) 127 []))
    (fun t => t.output == 0x7E#8 :: ramp 127 && t.mode == .rep && t.rc == 1#8) = true := by decide +kernel

/-- T2.2-8: the counter reaches 127 without emitting. -/
theorem test_scanRepEq : nextIs (step (running (List.replicate 129 7#8) .rep 126 [] 126 []))
    (fun t => t.rc == 127#8 && t.olen == 0 && t.pos == 127) = true := by decide +kernel

/-- T2.2-9. -/
theorem test_scanRepEqSat : nextIs (step (running (List.replicate 129 7#8) .rep 127 [] 127 []))
    (fun t => t.output == [0x82#8, 7#8] && t.rc == 1#8 && t.mode == .rep && t.pos == 128) = true := by decide +kernel

/-- T2.2-12. -/
theorem test_scanRepNe : nextIs (step (running [1#8, 1#8, 2#8, 3#8] .rep 1 [] 1 []))
    (fun t => t.output == [0xFF#8, 1#8] && t.mode == .raw && t.rc == 0#8 && t.pos == 2) = true := by decide

/-- T2.2-11: SAT is a don't-care; count 128. -/
theorem test_scanRepNe_128 : nextIs (step (running (List.replicate 128 7#8 ++ [8#8, 9#8]) .rep 127 [] 127 []))
    (fun t => t.output == [0x81#8, 7#8] && t.mode == .raw) = true := by decide +kernel

/-- T2.3-2. -/
theorem test_finRaw : nextIs (step (running [1#8, 2#8, 3#8] .raw 0 [1#8, 2#8] 2 []))
    (fun t => t.output == [2#8, 1#8, 2#8, 3#8] && t.done && t.phase == .idle && t.pos == 2 && t.blen == 0#8) = true := by
  decide

/-- T2.3-3: the only 128-literal packet. -/
theorem test_finRaw_128 : nextIs (step (running (ramp 128) .raw 0 (ramp 127) 127 []))
    (fun t => t.output == 0x7F#8 :: ramp 128 && t.done) = true := by decide +kernel

/-- T2.3-7. -/
theorem test_finRep : nextIs (step (running [9#8, 4#8, 4#8] .rep 1 [] 2 [0#8, 9#8]))
    (fun t => t.output == [0#8, 9#8, 0xFF#8, 4#8] && t.rc == 2#8 && t.mode == .rep && t.done) = true := by decide

/-- T2.4-6: an overflow writes nothing; STATUS = 0x5A. -/
theorem test_overflow_is_precise : nextIs (step (sized (running [1#8, 2#8, 3#8] .raw 0 [1#8, 2#8] 2 []) 3))
    (fun t => t.status == 0x5A#8 && t.olen == 0 && t.bufBytes == [1#8, 2#8] && t.pos == 2) = true := by decide

/-- T2.7-14: RC = 0 in REPEAT; STATUS = 0x6E. -/
theorem test_invariant_fault : nextIs (step (running [1#8, 1#8] .rep 0 [] 1 [])) (fun t => t.status == 0x6E#8) = true := by
  decide

/-! ## The commands: vectors of section 2.7 -/

theorem test_nop : nextIs (exec .nop (running [1#8] .raw 0 [] 0 [])) (fun t => t.status == 0x02#8) = true := by decide

/-- T2.7-8. -/
theorem test_start : nextIs (exec .start (loaded [1#8, 2#8, 3#8] 3))
    (fun t => t.status == 0x02#8 && t.chunkLen == 3) = true := by decide

/-- T2.7-2: the empty chunk is done at once. -/
theorem test_start_empty : nextIs (exec .start (loaded [] 0)) (fun t => t.status == 0x01#8 && t.olen == 0) = true := by
  decide

/-- T2.7-3, T2.7-9: LENGTH and START_BUSY. -/
theorem test_start_faults : nextIs (exec .start (loaded [] 257)) (fun t => t.status == 0x38#8) = true ∧
    nextIs (exec .start (running [1#8, 2#8, 3#8] .raw 0 [] 0 [])) (fun t => t.status == 0x2A#8) = true := by decide

/-- T2.7-7, T2.7-19. -/
theorem test_cmdReserved : nextIs (exec .cmdReserved State.reset) (fun t => t.status == 0x18#8) = true ∧
    nextIs (exec .cmdReserved (faulted State.reset)) (fun t => t.status == 0x38#8) = true := by decide

/-- T2.7-17. -/
theorem test_reset : nextIs (exec .reset (faulted (running [1#8, 2#8] .rep 1 [] 1 [])))
    (fun t => t.status == 0x00#8 && t.imem == [] && t.chunkLen == 0 && t.rc == 0#8) = true := by decide

/-! ## The host's moves -/

/-- T2.7-11: a LEN write in a run leaves L. -/
theorem test_len_is_latched : nextIs (step (asked (running [1#8, 2#8, 3#8] .raw 0 [] 0 []) 0 (.writeReg .len 1)))
    (fun t => t.lenReg == 1 && t.chunkLen == 3 && t.script == []) = true := by decide

/-- P5, line 5: OLEN is readable in a faulted run. -/
theorem test_read_after_fault :
    nextIs (step (asked (faulted (running [1#8, 1#8, 2#8] .raw 0 [] 2 [0xFF#8, 1#8])) 0 (.readReg .olen)))
      (fun t => t.received == [2]) = true := by decide

/-- A delayed move lets the CORE step first; a WAIT does too. -/
theorem test_core_steps_before_a_delayed_move :
    nextIs (step (asked (running [1#8, 2#8, 3#8] .raw 0 [] 0 []) 1 (.writeReg .ctrl 3)))
      (fun t => t.pos == 1 && t.script == [{ after := 0, act := .writeReg .ctrl 3 }]) = true ∧
    nextIs (step (asked (running [1#8, 2#8, 3#8] .raw 0 [] 0 []) 0 .wait)) (fun t => t.pos == 1) = true := by decide

/-- P5, line 5: the host collects the two bytes a faulted run wrote, and none of a run that goes on. -/
theorem test_collect :
    let s := running [1#8, 1#8, 2#8] .raw 0 [] 2 [0xFF#8, 1#8]
    nextIs (step (asked (faulted s) 0 .collect)) (fun t => t.reader.stream == [0xFF#8, 1#8] && t.olen == 2) = true ∧
    step (asked s 0 .collect) = .refused .outputReadInRun := ⟨by decide, rfl⟩

/-- The lines of `ENCODE [0x42]` (R67). -/
theorem test_encode_lines : (encodeMoves [0x42#8]).map (fun m => m.act) =
    [.writeImem 0 0x42#8, .writeReg .len 1, .writeReg .ctrl 1, .wait] := rfl

/-! ## Table words, placed and run from reset -/

theorem test_table_word_selector : decodeTableWord 8 0x07 = some .scanRepEqSat ∧
    nextIs (step (State.reset.withFetchWord 8 0x07)) (fun t => t.rc == 1#8 && t.olen == 2) = true := by decide +kernel

theorem test_table_word_command : decodeTableWord 2 0b10 = some .cmdReserved ∧
    nextIs (step (State.reset.withFetchWord 2 0b10)) (fun t => t.status == 0x18#8) = true := by decide

theorem test_table_word_packet : decodeTableWord 8 0x81 = some (.pktRepeat 1#7 0#8) ∧
    nextIs (step (State.reset.withFetchWord 8 0x81)) (fun t => t.reader.expanded == List.replicate 128 0#8) = true := by
  decide +kernel

/-! ## Witnesses of the statements' hypotheses -/

theorem witness_DecodeOfEncodeIsTheInstruction : (Instr.pktRaw 0x7F#7 (List.replicate 128 0#8)).wellFormed = true ∧
    (Instr.pktRepeat 1#7 0#8).wellFormed = true ∧ Instr.finRep.wellFormed = true ∧ Instr.reset.wellFormed = true := by
  decide +kernel

theorem witness_EncodeOfDecodedPacketIsItsBytes : decodePacket [0x00#8, 7#8, 9#8] = .ok (.pktRaw 0#7 [7#8], [9#8]) ∧
    decodePacket [0x81#8, 7#8] = .ok (.pktRepeat 1#7 7#8, []) ∧ decodePacket [0x80#8] = .ok (.pktReserved, []) :=
  ⟨rfl, rfl, rfl⟩

theorem witness_PacketLengthFromFirstByte : packetLength 0x7F#8 = some 129 ∧ packetLength 0x00#8 = some 2 ∧
    packetLength 0x80#8 = none ∧ packetLength 0x81#8 = some 2 ∧ ([] : List Byte).length + 1 < 2 ∧ 2 ≤ [5#8].length + 1 := by
  decide

/-- The reader before and after a fault of Expand. -/
theorem witness_PktRawMeansItsLiterals_PktRepeatMeansItsCopies : State.reset.reader.fault = none ∧
    (State.reset.expandRaise .reservedControl).reader.fault = some .reservedControl := by decide

theorem witness_RepeatControlByte : 2 ≤ 128 ∧ 1 ≤ 256 ∧ 1 ≤ (1#8).toNat ∧ (128#8).toNat ≤ 128 := by decide

theorem witness_ReservedControlFaultsExpandOnly : State.reset.reader.fault = none ∧
    (State.reset.expandRaise .truncated).reader.fault = some .truncated := by decide

theorem witness_ExpandClauses : [1#8].length < (1#7).toNat + 1 ∧ (1#7).toNat + 1 ≤ [1#8, 2#8].length ∧
    0x80 < (0x81#8).toNat := by decide

theorem witness_ScanRawEqFlushesAndCounts :
    let s := running [9#8, 4#8, 4#8] .raw 0 [9#8] 1 []
    (s.coreReady ∧ s.blen ≠ 0#8 ∧ s.fits (s.blen.toNat + 1)) ∧
    ((sized s 1).coreReady ∧ (sized s 1).blen ≠ 0#8 ∧ ¬ (sized s 1).fits ((sized s 1).blen.toNat + 1)) ∧
    ((broken s).phase = .run ∧ (broken s).fault = false ∧ (broken s).invariantsHold = false) ∧
    (running [4#8, 4#8] .raw 0 [] 0 []).coreReady := by decide

theorem witness_ScanRawNeAppendsTheCursorByte :
    let s := running (ramp 128) .raw 0 (ramp 126) 126 []
    (s.coreReady ∧ s.mode = .raw ∧ s.blen.toNat ≤ 126) ∧ s.selector? = some 0b0000#4 ∧
    ((broken s).phase = .run ∧ (broken s).fault = false ∧ (broken s).invariantsHold = false) := by decide +kernel

theorem witness_ScanRawNeFullFlushesThenAppends :
    let s := running (ramp 129) .raw 0 (ramp 127) 127 []
    (s.coreReady ∧ s.mode = .raw ∧ s.blen = 127#8 ∧ (sized s 128).fits 128) ∧
    ((sized s 127).coreReady ∧ ¬ (sized s 127).fits 128) ∧ (sized s 128).coreReady ∧
    ((broken s).phase = .run ∧ (broken s).fault = false ∧ (broken s).invariantsHold = false) := by decide +kernel

theorem witness_ScanRepEqCountsOneMore :
    let s := running (List.replicate 129 7#8) .rep 126 [] 126 []
    (s.coreReady ∧ s.mode = .rep ∧ s.rc.toNat ≤ 126) ∧
    ((broken s).phase = .run ∧ (broken s).fault = false ∧ (broken s).invariantsHold = false) := by decide +kernel

theorem witness_ScanRepEqSatEmits127Copies :
    let s := running (List.replicate 129 7#8) .rep 127 [] 127 []
    ((sized s 2).coreReady ∧ s.mode = .rep ∧ s.rc = 127#8 ∧ (sized s 2).fits 2) ∧
    ((sized s 1).coreReady ∧ ¬ (sized s 1).fits 2) ∧
    ((broken s).phase = .run ∧ (broken s).fault = false ∧ (broken s).invariantsHold = false) := by decide +kernel

/-- For SCAN_REP_NE and FIN_REP: RC at both ends of its range, OMEM just large enough and just too small. -/
theorem witness_ScanRepNeEmitsTheRun_FinRepEmitsTheRun :
    let s := running [1#8, 1#8, 2#8] .rep 1 [] 1 []
    let f := running (List.replicate 128 7#8) .rep 127 [] 127 []
    ((sized s 2).coreReady ∧ s.mode = .rep ∧ (sized s 2).fits 2) ∧ ((sized s 1).coreReady ∧ ¬ (sized s 1).fits 2) ∧
    ((sized f 2).coreReady ∧ f.mode = .rep ∧ (sized f 2).fits 2) ∧ ((sized f 1).coreReady ∧ ¬ (sized f 1).fits 2) ∧
    ((broken s).phase = .run ∧ (broken s).fault = false ∧ (broken s).invariantsHold = false) := by decide +kernel

theorem witness_FinRawFlushesTheRest :
    let s := running [1#8, 2#8, 3#8] .raw 0 [1#8, 2#8] 2 []
    ((sized s 4).coreReady ∧ s.mode = .raw ∧ (sized s 4).fits (s.blen.toNat + 2)) ∧
    ((sized s 3).coreReady ∧ ¬ (sized s 3).fits (s.blen.toNat + 2)) ∧
    ((broken s).phase = .run ∧ (broken s).fault = false ∧ (broken s).invariantsHold = false) := by decide

theorem witness_NoTransitionWithoutAStep : isTransition .scanRawEq = true ∧ (faulted State.reset).fault = true ∧
    State.reset.fault = false ∧ State.reset.phase = .idle := by decide

theorem witness_BrokenInvariantFaultsBeforeDecoding :
    let s := running [1#8, 1#8] .rep 0 [] 1 []
    let p := running [1#8] .raw 0 [] 1 []
    (s.script = [] ∧ s.phase = .run ∧ s.fault = false ∧ ¬ 1 ≤ s.rc.toNat ∧ s.mode = .rep) ∧
    (p.script = [] ∧ p.phase = .run ∧ p.fault = false ∧ ¬ p.pos < p.chunkLen) ∧
    ((asked p 0 .wait).script = [{ after := 0, act := .wait }] ∧ (asked p 0 .wait).done = false) := by decide

theorem witness_FlushRawWritesTheBuffer :
    let s := running (ramp 128) .raw 0 (ramp 127) 127 []
    State.reset.blen = 0#8 ∧ (s.blen ≠ 0#8 ∧ (sized s 128).fits (s.blen.toNat + 1)) ∧
    ¬ (sized s 127).fits (s.blen.toNat + 1) := by decide +kernel

theorem witness_EmitRepeatWritesTwoBytes : (sized State.reset 2).fits 2 ∧ ¬ (sized State.reset 1).fits 2 := by decide

theorem witness_StartChecksThenBeginsARun :
    let s := loaded (ramp 256) 256
    (faulted s).fault = true ∧ (running [1#8] .raw 0 [] 0 []).phase = .run ∧ (running [1#8] .raw 0 [] 0 []).fault = false ∧
    (s.fault = false ∧ s.phase = .idle ∧ s.lenReg ≤ s.cfg.pMaxLen ∧ 1 ≤ s.lenReg) ∧
    ((loaded [] 257).cfg.pMaxLen < (loaded [] 257).lenReg ∧ (loaded [] 257).phase = .idle ∧ (loaded [] 257).fault = false) ∧
    ((loaded [7#8] 1).lenReg = 1 ∧ 1 ≤ (loaded [7#8] 1).cfg.pMaxLen ∧ (loaded [7#8] 1).script = []) ∧
    ((loaded [] 0).lenReg = 0 ∧ (loaded [] 0).phase = .idle ∧ (loaded [] 0).fault = false) := by decide +kernel

theorem witness_ReservedCommandRaisesBadCmd : State.reset.fault = false ∧ (faulted State.reset).fault = true := by decide

theorem witness_PowerOnResetState :
    let s := asked (running [1#8, 2#8] .raw 0 [] 0 []) 0 .powerOn
    s.script = [{ after := 0, act := .powerOn }] ∧ s.coreEnabled = true := by decide

theorem witness_FaultedStateActions : (faulted (running [1#8] .raw 0 [] 0 [])).fault = true ∧
    511 < (faulted (running [1#8] .raw 0 [] 0 [])).cfg.pOmemSize := by decide

theorem witness_OnlyResetLeavesAFault :
    let s := faulted (running [1#8] .raw 0 [] 0 [])
    (s.fault = true ∧ nextIs (step (asked s 0 (.writeReg .ctrl 3))) (fun t => !t.fault) = true) ∧
    nextIs (step (asked s 0 (.writeReg .ctrl 2))) (fun t => t.fault) = true := by decide

theorem witness_FaultsArePrecise :
    (running [1#8, 1#8] .rep 0 [] 1 []).fault = false ∧
    nextIs (step (running [1#8, 1#8] .rep 0 [] 1 [])) (fun t => t.fault) = true := by decide

/-- A state that already holds the code meets the hypotheses; no run reaches one. -/
theorem witness_InputRangeNeverFires :
    nextIs (step (asked { State.reset with fault := true, fcode := .inputRange } 0 (.readReg .status)))
      (fun t => t.fcode == .inputRange) = true := by decide

theorem witness_InterfaceRegisters : State.reset.coreEnabled = false ∧ 1023 < 2 ^ State.reset.cfg.pCntWidth := by decide

theorem witness_HostActionsDuringARun : (running [1#8] .raw 0 [] 0 []).phase = .run ∧
    (running [1#8] .raw 0 [] 0 []).fault = false ∧ 1023 < 2 ^ (running [1#8] .raw 0 [] 0 []).cfg.pCntWidth := by decide

theorem witness_HostWriteOfImem : State.reset.phase = .idle ∧ 255 < State.reset.cfg.pMaxLen ∧
    State.reset.cfg.pMaxLen ≤ 256 ∧ (running [1#8] .raw 0 [] 0 []).phase = .run := by decide

theorem witness_HostReadOfOutput : State.reset.coreEnabled = false ∧ 511 < State.reset.cfg.pOmemSize ∧
    State.reset.cfg.pOmemSize ≤ 512 ∧ (running [1#8] .raw 0 [] 0 []).phase = .run ∧
    (running [1#8] .raw 0 [] 0 []).fault = false := by decide

theorem witness_OnlyDoneOrFaultEndsAWait :
    let s := asked (running [1#8, 2#8] .raw 0 [] 0 []) 0 .wait
    (s.done = false ∧ s.fault = false ∧ nextIs (step s) (fun t => t.pos == 1) = true) ∧
    ((faulted s).fault = true ∧ (faulted s).coreEnabled = false) ∧
    (({ asked State.reset 0 .wait with done := true } : State).done = true ∧ (asked State.reset 0 .wait).coreEnabled = false) := by
  decide

theorem witness_StepRunsTheSelectedTransition :
    let s := running [1#8, 1#8, 2#8] .rep 1 [] 1 []
    s.coreReady ∧ (0b0100#4).getLsbD 3 = decide (s.pos + 1 = s.chunkLen) ∧
    (0b0100#4).getLsbD 2 = decide (s.mode = .rep) ∧
    (0b0100#4).getLsbD 1 = decide (s.pos + 1 ≠ s.chunkLen ∧ s.imemByte s.pos = s.imemByte (s.pos + 1)) ∧
    (0b0100#4).getLsbD 0 = decide ((s.mode = .raw ∧ s.blen = 127#8) ∨ (s.mode = .rep ∧ s.rc = 127#8)) ∧
    s.script = [] ∧ (asked s 1 .wait).script = [{ after := 1, act := .wait }] ∧
    (asked s 0 .wait).script = [{ after := 0, act := .wait }] ∧ (asked s 0 .wait).done = false ∧
    (asked s 0 .wait).coreReady := by decide

theorem witness_StepRunsTheWrittenCommand :
    (asked State.reset 0 (.writeReg .ctrl 7)).script = [{ after := 0, act := .writeReg .ctrl 7 }] ∧
    (3#2).toNat = 7 % 4 ∧ (asked State.reset 0 (.writeReg .ctrl 7)).coreEnabled = false ∧
    HostAct.writeReg .ctrl 7 ≠ .wait ∧ (asked (running [1#8] .raw 0 [] 0 []) 0 .collect).coreEnabled = true := by decide

theorem witness_StepRunsTheNextPacket :
    let s : State := { asked State.reset 0 .readPacket with reader := { stream := [0xFF#8, 5#8], expanded := [], fault := none } }
    s.script = [{ after := 0, act := .readPacket }] ∧ s.coreEnabled = false ∧ s.reader.fault = none ∧
    (decodePacket s.reader.stream).toOption = some (.pktRepeat 0x7F#7 5#8, []) := by decide

theorem witness_NothingPendingWaitsOrIsStuck : State.reset.script = [] ∧ State.reset.fault = false ∧
    State.reset.phase = .idle ∧ (faulted State.reset).fault = true ∧ (faulted State.reset).script = [] := by decide

theorem witness_PlacedTableWordIsRunNext : decodeTableWord 8 0x0C = some .finRep ∧ decodeTableWord 2 1 = some .start ∧
    decodeTableWord 8 0x80 = some .pktReserved ∧ isTransition .finRep = true ∧ isCommand .start = true ∧
    isPacket .pktReserved = true := by decide

/-! ### Witnesses of the invariant -/

/-- W5 at its last step: REPEAT, RC = 1, POS = 5, with `FE 01 00 02` written. -/
def atLastByte : State := running [1#8, 1#8, 1#8, 2#8, 3#8, 3#8] .rep 1 [] 5 [0xFE#8, 1#8, 0#8, 2#8]

theorem atLastByte_inv : atLastByte.Inv :=
  ⟨by decide, by decide, by decide, by decide, fun _ =>
    ⟨by decide, fun _ => by decide, ⟨[1#8, 1#8, 1#8, 2#8], rfl, by decide⟩, by decide⟩⟩

/-- W3 at its second step: RAW, BUF = [01], POS = 1. -/
theorem midRun_inv : (running [1#8, 2#8, 3#8] .raw 0 [1#8] 1 []).Inv :=
  ⟨by decide, by decide, by decide, by decide, fun _ =>
    ⟨fun _ => by decide, by decide, ⟨[], rfl, by decide⟩, by decide⟩⟩

/-- A chunk loaded and LEN written, before START. -/
theorem loaded_inv : (loaded [1#8, 2#8, 3#8] 3).Inv :=
  ⟨by decide, by decide, by decide, by decide, fun h => absurd h (by decide)⟩

/-- The same chunk beside a byte above L and with another number of resets behind it. -/
theorem loaded_other_inv : ({ loaded [1#8, 2#8, 3#8, 9#8] 3 with epoch := 5 } : State).Inv :=
  ⟨by decide, by decide, by decide, by decide, fun h => absurd h (by decide)⟩

/-- The second step on W3 has the selector of SCAN_RAW_NE, and appends. -/
theorem witness_ScanRawNeAppendsTheCursorByte_adjacent :
    let s := running [1#8, 2#8, 3#8] .raw 0 [1#8] 1 []
    s.Inv ∧ s.coreReady ∧ s.selector? = some 0b0000#4 ∧ nextIs (exec .scanRawNe s) (fun t => t.blen == 2#8) = true :=
  ⟨midRun_inv, by decide, by decide, by decide⟩

/-- FIN_RAW with BLEN = 127 writes the 129 bytes. -/
theorem witness_ScanRawNeFullFlushesThenAppends_FinRawFlushesTheRest_largest :
    let s := running (ramp 128) .raw 0 (ramp 127) 127 []
    isTransition .finRaw = true ∧ s.coreReady ∧ nextIs (exec .finRaw s) (fun t => decide (s.olen + 129 ≤ t.olen)) = true := by
  decide +kernel

/-- 127 copies pending, at the end of 128 equal bytes. -/
theorem witness_ScanRepEqSatEmits127Copies_pending :
    let s := running (List.replicate 129 7#8) .rep 127 [] 127 []
    s.Inv ∧ s.phase = .run ∧ s.mode = .rep ∧ s.rc = 127#8 :=
  ⟨⟨by decide, by decide +kernel, by decide +kernel, by decide, fun _ =>
    ⟨fun h => absurd h (by decide), fun _ => by decide +kernel, ⟨[], rfl, by decide +kernel⟩, by decide +kernel⟩⟩, by decide, by decide, by decide⟩

/-- A START after FIN_REP changes RC. -/
theorem witness_FinRepEmitsTheRun_later :
    let s := asked { loaded [1#8] 1 with mode := .rep, rc := 2#8, done := true } 0 (.writeReg .ctrl 1)
    s.phase = .idle ∧ nextIs (step s) (fun t => t.rc != s.rc) = true := by decide

theorem witness_StepKeepsStoresCanonical : atLastByte.memInv ∧ nextIs (step atLastByte) (fun t => t.done) = true := by decide

theorem witness_StepKeepsTheInvariant : atLastByte.Inv ∧ nextIs (step atLastByte) (fun t => t.done) = true ∧
    (running [1#8, 2#8, 3#8] .raw 0 [1#8] 1 []).Inv := ⟨atLastByte_inv, by decide, midRun_inv⟩

theorem witness_OnlyTheirWritersChangeModeRcBuf :
    nextIs (exec .scanRepNe (running [1#8, 1#8, 2#8] .rep 1 [] 1 [])) (fun t => t.mode != .rep && t.rc != 1#8) = true ∧
    nextIs (exec .scanRawNe (running [1#8, 2#8] .raw 0 [] 0 [])) (fun t => t.buf != []) = true := by decide

theorem witness_NoInstructionWritesImem : nextIs (exec .nop (loaded [1#8] 1)) (fun t => t.imem == [(0, 1#8)]) = true ∧
    Instr.nop ≠ .reset := by decide

theorem witness_WrittenOutputIsNeverRewritten : isTransition .finRep = true ∧
    nextIs (exec .finRep atLastByte) (fun t => t.olen == 6) = true ∧ 3 < atLastByte.olen := by decide

theorem witness_AStepWritesAtMostOnePacket : atLastByte.Inv ∧ atLastByte.script = [] ∧ atLastByte.coreEnabled = true ∧
    nextIs (step atLastByte) (fun t => t.olen == 6) = true := ⟨atLastByte_inv, by decide, by decide, by decide⟩

theorem witness_RunEndsInRoundTrip : (atLastByte.Inv ∧ atLastByte.phase = .run ∧
    nextIs (step atLastByte) (fun t => t.done) = true) ∧
    ((loaded [] 0).fault = false ∧ (loaded [] 0).phase = .idle ∧ (loaded [] 0).lenReg = 0) :=
  ⟨⟨atLastByte_inv, by decide, by decide⟩, by decide⟩

/-- The invariant in a run, for the first clauses of BrokenInvariantFaultsBeforeDecoding and StatusByteFields. -/
theorem witness_StatusByteFields : atLastByte.Inv ∧ atLastByte.phase = .run := ⟨atLastByte_inv, rfl⟩

/-- A state with the fault already taken, whose host reads STATUS, meets the hypotheses. -/
theorem witness_RecommendedSizeNeverOverflows :
    let s := asked { State.reset with fault := true, fcode := .outOverflow } 0 (.readReg .status)
    s.Inv ∧ 2 * s.cfg.pMaxLen ≤ s.cfg.pOmemSize ∧ nextIs (step s) (fun t => t.fcode == .outOverflow) = true :=
  ⟨⟨by decide, by decide, by decide, by decide, fun h => absurd h (by decide)⟩, by decide, by decide⟩

theorem witness_RunFinishesTheDocumentsScan : atLastByte.Inv ∧ atLastByte.phase = .run ∧ atLastByte.fault = false ∧
    atLastByte.script = [] ∧ 2 * atLastByte.cfg.pMaxLen ≤ atLastByte.cfg.pOmemSize :=
  ⟨atLastByte_inv, by decide, by decide, by decide, by decide⟩

/-- For the three statements about a whole run. -/
theorem witness_StartedRunEncodesTheChunk_EveryRunEndsOrFaults :
    let s := loaded [1#8, 2#8, 3#8] 3
    s.Inv ∧ s.phase = .idle ∧ s.fault = false ∧ s.script = [] ∧ 1 ≤ s.lenReg ∧ s.lenReg ≤ s.cfg.pMaxLen ∧
    2 * s.cfg.pMaxLen ≤ s.cfg.pOmemSize :=
  ⟨loaded_inv, by decide, by decide, by decide, by decide, by decide, by decide⟩

theorem witness_EncodingDependsOnTheChunkOnly :
    let s := loaded [1#8, 2#8, 3#8] 3
    let s' : State := { loaded [1#8, 2#8, 3#8, 9#8] 3 with epoch := 5 }
    s.Inv ∧ s'.Inv ∧ s.phase = .idle ∧ s'.phase = .idle ∧ s.fault = false ∧ s'.fault = false ∧ s.script = [] ∧
    s'.script = [] ∧ 1 ≤ s.lenReg ∧ s.lenReg ≤ s.cfg.pMaxLen ∧ s'.lenReg ≤ s'.cfg.pMaxLen ∧
    2 * s.cfg.pMaxLen ≤ s.cfg.pOmemSize ∧ 2 * s'.cfg.pMaxLen ≤ s'.cfg.pOmemSize ∧
    s.input s.lenReg = s'.input s'.lenReg :=
  ⟨loaded_inv, loaded_other_inv, by decide, by decide, by decide, by decide, by decide, by decide, by decide, by decide,
    by decide, by decide, by decide, by decide⟩

theorem witness_TransitionsIgnoreTheHostSide : isTransition .scanRawNe = true ∧ isTransition .finRep = true := by decide

end Sys2Proof.Tests
end

section
/-! SUPPORT. What the CORE's step can lead to from a state that meets the invariant: overflow, the next byte, or the end of the
run, each with the bytes written and what they mean (R28 to R30, R92, R98). -/

namespace Sys2Proof.Machine

/-! ### What written bytes mean -/

/-- The bytes mean `w` (R71), in at most twice its length (R98). -/
def Means (bytes w : List Byte) : Prop := expand bytes = .ok w ∧ bytes.length ≤ 2 * w.length

theorem Means.nil : Means [] [] := ⟨rfl, Nat.le_refl 0⟩

theorem Means.append {a b w v : List Byte} (ha : Means a w) (hb : Means b v) : Means (a ++ b) (w ++ v) := by
  obtain ⟨ha, hla⟩ := ha
  obtain ⟨hb, hlb⟩ := hb
  exact ⟨expand_append ha hb, by simp; omega⟩

theorem Means.rawBytes {lits : List Byte} (h : lits.length ≤ 128) : Means (rawBytes lits) lits := by
  refine ⟨expand_rawBytes h, ?_⟩
  cases lits with
  | nil => simp [Machine.rawBytes]
  | cons b lits => simp [Machine.rawBytes]

theorem Means.repBytes {k : Nat} (h1 : 2 ≤ k) (h2 : k ≤ 128) (v : Byte) :
    Means (repBytes k v) (List.replicate k v) :=
  ⟨expand_repBytes h1 h2 v, by simp [Machine.repBytes]; omega⟩

theorem State.pending_raw {s : State} (h : s.mode = .raw) : s.pending = s.bufBytes := by simp [State.pending, h]

theorem State.pending_rep {s : State} (h : s.mode = .rep) :
    s.pending = List.replicate s.rc.toNat (s.imemByte s.pos) := by simp [State.pending, h]

/-- MODE's own invariant (R28, R29). -/
def State.modeInv (s : State) : Prop := (s.mode = .raw → s.rawInv) ∧ (s.mode = .rep → s.repInv)

/-- The progress invariant and the output bound (R30, R98) in one: OLEN counts at most two bytes for each one written. -/
theorem State.runInv_iff (s : State) :
    s.runInv ↔ s.modeInv ∧ ∃ written, Means s.output written ∧ written ++ s.pending = s.input s.pos := by
  have hlen : ∀ written, written ++ s.pending = s.input s.pos → written.length + s.pending.length = s.pos := by
    intro written h
    simpa using congrArg List.length h
  constructor
  · rintro ⟨hraw, hrep, ⟨written, hexp, hw⟩, hbound⟩
    have := hlen written hw
    exact ⟨⟨hraw, hrep⟩, written, ⟨hexp, by simp; omega⟩, hw⟩
  · rintro ⟨⟨hraw, hrep⟩, written, ⟨hexp, hbound⟩, hw⟩
    have := hlen written hw
    rw [State.output_length] at hbound
    exact ⟨hraw, hrep, ⟨written, hexp, hw⟩, by omega⟩

/-! ### The shape of a transition's write -/

theorem CoreFrame.cfg {s t : State} (h : CoreFrame s t) : t.cfg = s.cfg := h.1

theorem CoreFrame.chunkLen {s t : State} (h : CoreFrame s t) : t.chunkLen = s.chunkLen := h.2.1

theorem CoreFrame.imemByte {s t : State} (h : CoreFrame s t) (a : Nat) : t.imemByte a = s.imemByte a := by
  obtain ⟨-, -, -, -, -, -, h, -⟩ := h
  exact h a

theorem CoreFrame.input {s t : State} (h : CoreFrame s t) (n : Nat) : t.input n = s.input n := by
  simp [State.input, h.imemByte]

/-- `t` is `s` after a transition that wrote `bs`: the frame, the output, and stores that stay canonical. -/
structure Wrote (s t : State) (bs : List Byte) : Prop where
  frame : CoreFrame s t
  appended : Appended s t bs
  fits : s.fits bs.length
  memInv : s.memInv → t.memInv

theorem State.emitAll_memInv {s : State} {bs : List Byte} (hf : s.fits bs.length) (h : s.memInv) :
    (s.emitAll bs).memInv := by
  obtain ⟨himem, homem, hbuf, himemLt, homemLt, hbufLt⟩ := h
  rw [State.memInv, State.emitAll_imem, State.emitAll_buf, State.emitAll_cfg]
  refine ⟨himem, State.emitAll_omem_wf homem bs, hbuf, himemLt, fun c hc => ?_, hbufLt⟩
  rcases State.mem_emitAll_omem hc with hc | ⟨-, hc⟩
  · exact homemLt c hc
  · exact Nat.lt_of_lt_of_le hc hf

/-- The transitions write the packet's bytes, at most one entry of BUF, and registers that the frame does not hold. -/
theorem Wrote.of_emitAll {s t : State} {bs : List Byte} (hf : s.fits bs.length)
    (ht : t = { s.emitAll bs with
      mode := t.mode, rc := t.rc, buf := t.buf, blen := t.blen, pos := t.pos, phase := t.phase, done := t.done })
    (hb : t.buf = s.buf ∨ ∃ i b, i < 128 ∧ t.buf = s.buf.write i b) : Wrote s t bs := by
  have hcfg : t.cfg = s.cfg := by rw [ht]; simp
  have himem : t.imem = s.imem := by rw [ht]; simp
  have hepoch : t.epoch = s.epoch := by rw [ht]; simp
  have homem : t.omem = (s.emitAll bs).omem := by rw [ht]
  have hframe : CoreFrame s t := by rw [ht]; simp [CoreFrame, State.imemByte]
  refine ⟨hframe, (s.emitAll_appended bs).congr rfl rfl rfl homem (by simpa using hepoch) (by rw [ht]), hf, fun h => ?_⟩
  obtain ⟨himemWf, homemWf, -, himemLt, homemLt, -⟩ := State.emitAll_memInv hf h
  obtain ⟨-, -, hbufWf, -, -, hbufLt⟩ := h
  rw [State.emitAll_imem] at himemWf himemLt
  rw [State.emitAll_cfg] at himemLt homemLt
  refine ⟨by rwa [himem], by rwa [homem], ?_, by rwa [himem, hcfg], by rwa [homem, hcfg], ?_⟩
  · rcases hb with hb | ⟨i, b, -, hb⟩ <;> rw [hb]
    · exact hbufWf
    · exact Memory.write_wf hbufWf i b
  · intro c hc
    rcases hb with hb | ⟨i, b, hi, hb⟩ <;> rw [hb] at hc
    · exact hbufLt c hc
    · rcases Memory.mem_write hc with rfl | hc
      · exact hi
      · exact hbufLt c hc

/-- A scan transition moves the cursor to the next byte of the chunk and leaves PHASE and DONE. -/
structure Moves (s t : State) (bs : List Byte) : Prop extends Wrote s t bs where
  phase : t.phase = s.phase
  done : t.done = s.done
  pos : t.pos = s.pos + 1
  inside : s.pos + 1 < s.chunkLen

theorem Moves.of_emitAll {s t : State} {bs : List Byte} (hf : s.fits bs.length)
    (ht : t = { s.emitAll bs with mode := t.mode, rc := t.rc, buf := t.buf, blen := t.blen, pos := s.pos + 1 })
    (hb : t.buf = s.buf ∨ ∃ i b, i < 128 ∧ t.buf = s.buf.write i b) (hlt : s.pos + 1 < s.chunkLen) : Moves s t bs where
  toWrote := .of_emitAll hf (by rw [ht]) hb
  phase := by rw [ht]; simp
  done := by rw [ht]; simp
  pos := by rw [ht]
  inside := hlt

/-! ### The input still to be scanned, and the output still to be written -/

/-- The bytes of the chunk from the cursor on. -/
def State.unread (s : State) : List Byte := (s.input s.chunkLen).drop s.pos

/-- What the document's scan writes from this state on (R85). -/
def State.remaining (s : State) : List Byte := encodeFrom s.mode s.rc.toNat s.bufBytes s.unread

theorem State.unread_eq {s : State} (h : s.pos < s.chunkLen) :
    s.unread = s.imemByte s.pos :: (s.input s.chunkLen).drop (s.pos + 1) := by
  rw [State.unread, List.drop_eq_getElem_cons (by simpa using h)]
  simp [State.input]

/-- On the last byte of the chunk (FIN, R27) nothing else is unread. -/
theorem State.unread_last {s : State} (h : s.pos + 1 = s.chunkLen) : s.unread = [s.imemByte s.pos] := by
  rw [State.unread_eq (by omega), h, List.drop_eq_nil_of_le]
  simp

/-- A move to the next byte takes one byte off the unread ones. -/
theorem Moves.unread {s t : State} {bs : List Byte} (h : Moves s t bs) :
    ∃ rest, s.unread = s.imemByte s.pos :: s.imemByte (s.pos + 1) :: rest ∧
      t.unread = s.imemByte (s.pos + 1) :: rest := by
  have hlt := h.inside
  have ht : t.unread = (s.input s.chunkLen).drop (s.pos + 1) := by
    rw [State.unread, h.frame.input, h.frame.chunkLen, h.pos]
  have ht' := State.unread_eq (s := t) (by rw [h.frame.chunkLen, h.pos]; exact hlt)
  rw [h.frame.imemByte, h.pos] at ht'
  exact ⟨_, by rw [State.unread_eq (by omega), ← ht, ht'], ht'⟩

/-! ### The three outcomes of a CORE step -/

/-- OUT_OVERFLOW: a packet does not fit, though it is no longer than twice the bytes it stands for (R92, R98). -/
def Overflows (s t : State) : Prop :=
  t = s.raise .outOverflow ∧ ∃ n, ¬ s.fits n ∧ n ≤ 2 * (s.pending.length + 1)

/-- A scan transition: the byte under the cursor joins the pending bytes, and `bs` means those that are no longer pending. -/
structure Advances (s t : State) (bs : List Byte) : Prop extends Moves s t bs where
  modeInv : t.modeInv
  meaning : ∃ w, Means bs w ∧ w ++ t.pending = s.pending ++ [s.imemByte s.pos]
  scan : s.remaining = bs ++ t.remaining

/-- A finalize transition: `bs` means the pending bytes and the last one, and the run is done. -/
structure Finishes (s t : State) (bs : List Byte) : Prop extends Wrote s t bs where
  phase : t.phase = .idle
  done : t.done = true
  pos : t.pos = s.pos
  counters : t.rc.toNat ≤ 128 ∧ t.blen.toNat ≤ 128
  last : s.pos + 1 = s.chunkLen
  meaning : Means bs (s.pending ++ [s.imemByte s.pos])
  scan : s.remaining = bs

/-- What the CORE's step leads to from a state that meets the invariant. -/
def StepOutcome (s t : State) : Prop := Overflows s t ∨ (∃ bs, Advances s t bs) ∨ ∃ bs, Finishes s t bs

/-- Past the check of R62, a transition overflows or has its effect. -/
theorem TransitionNext.overflows_or {s t : State} {bs w : List Byte} {upd : State → State}
    (h : TransitionNext s t bs upd) (hi : s.invariantsHold = true) (ho : s.olen ≤ s.cfg.pOmemSize) (hm : Means bs w)
    (hw : w.length ≤ s.pending.length + 1) : Overflows s t ∨ (s.fits bs.length ∧ t = upd (s.emitAll bs)) := by
  obtain ⟨-, -, ⟨hn, -⟩ | ⟨-, -, hfit, rfl⟩ | ⟨-, hfit, rfl⟩⟩ := h
  · rw [hi] at hn; cases hn
  · obtain ⟨-, hlen⟩ := hm
    exact .inl ⟨rfl, bs.length, hfit, by omega⟩
  · refine .inr ⟨?_, rfl⟩
    by_cases hbs : bs = []
    · simpa [hbs] using ho
    · exact hfit hbs

end Sys2Proof.Machine
end

section
/-! SUPPORT. The outcome of each transition of the CORE, and of the CORE's step (R78 to R84, R87, R88). -/

namespace Sys2Proof.Machine

section
variable {s t : State}

/-- RC = 1 meets R29 at the second of two equal bytes. -/
theorem Moves.modeInv_of_first_copy {bs : List Byte} (h : Moves s t bs) (hm : t.mode = .rep) (hb : t.blen = 0#8)
    (hrc : t.rc = 1#8) (heq : s.imemByte s.pos = s.imemByte (s.pos + 1)) : t.modeInv := by
  simp [State.modeInv, State.repInv, hm, hb, hrc, h.pos, h.frame.chunkLen, h.frame.imemByte, h.inside, heq]

variable (hi : s.invariantsHold = true) (ho : s.olen ≤ s.cfg.pOmemSize)
include hi ho

section
variable (hlt : s.pos + 1 < s.chunkLen)
include hlt

/-- SCAN_RAW_EQ (R79): the buffer becomes a packet, the cursor's byte the first copy. -/
theorem exec_scanRawEq_outcome (hm : s.mode = .raw) (hr : s.rawInv) (heq : s.imemByte s.pos = s.imemByte (s.pos + 1))
    (h : exec .scanRawEq s = .next t) : StepOutcome s t := by
  obtain ⟨hrc, hblen, -⟩ := hr
  have hpend := State.pending_raw hm
  have hmeans : Means (rawBytes s.bufBytes) s.bufBytes := .rawBytes (by simp; omega)
  rcases (exec_scanRawEq_next h).overflows_or hi ho hmeans (by simp [hpend]) with h | ⟨hfit, ht⟩
  · exact .inl h
  obtain ⟨htm, htrc, htblen, htbuf⟩ : t.mode = .rep ∧ t.rc = 1#8 ∧ t.blen = 0#8 ∧ t.buf = s.buf := by subst ht; simp
  have hmv : Moves s t (rawBytes s.bufBytes) := .of_emitAll hfit (by rw [ht]) (.inl htbuf) hlt
  refine .inr (.inl ⟨_, hmv, ?_, ⟨_, hmeans, ?_⟩, ?_⟩)
  · exact hmv.modeInv_of_first_copy htm htblen htrc heq
  · simp [State.pending_rep htm, hpend, htrc, hmv.pos, hmv.frame.imemByte, heq]
  · obtain ⟨rest, hs, ht'⟩ := hmv.unread
    simp [State.remaining, hs, ht', hm, htm, hrc, htrc, State.bufBytes_eq_nil htblen, encodeFrom, heq]

/-- SCAN_RAW_NE (R80): the cursor's byte joins the buffer. -/
theorem exec_scanRawNe_outcome (hm : s.mode = .raw) (hr : s.rawInv) (hne : s.imemByte s.pos ≠ s.imemByte (s.pos + 1))
    (hsat : s.blen.toNat ≠ 127) (h : exec .scanRawNe s = .next t) : StepOutcome s t := by
  obtain ⟨hrc, hblen, -, hble, hbuf, hadj, hdiff⟩ := hr
  rcases (exec_scanRawNe_next h).overflows_or hi ho .nil (by simp) with h | ⟨hfit, ht⟩
  · exact .inl h
  have hmv : Moves s t [] := .of_emitAll hfit (by rw [ht]) (.inr ⟨s.blen.toNat, _, by omega, by rw [ht]⟩) hlt
  obtain ⟨htm, htrc, htblen, htbuf, htepoch⟩ : t.mode = .raw ∧ t.rc = 0#8 ∧ t.blen = s.blen + 1#8 ∧
      t.buf = (s.append (s.imemByte s.pos)).buf ∧ t.epoch = s.epoch := by subst ht; simp [hm, hrc]
  have hbyte := fun i => (State.bufByte_congr htbuf htepoch i).trans (s.append_bufByte _ i)
  have hbytes := (State.bufBytes_congr htbuf htepoch htblen).trans (State.append_bufBytes hblen _)
  have hlen : t.blen.toNat = s.blen.toNat + 1 := by rw [htblen]; simp; omega
  refine .inr (.inl ⟨_, hmv, ⟨fun _ => ⟨htrc, by omega, ?_, ?_, ?_, ?_, ?_⟩, by simp [htm]⟩, ⟨_, .nil, ?_⟩, ?_⟩)
  · rw [hmv.pos, hmv.frame.chunkLen]; exact hlt
  · rw [hlen, hmv.pos]; omega
  · intro i hlti
    rw [hbyte, hmv.frame.imemByte, hlen, hmv.pos]
    split
    · congr 1; omega
    · rw [hbuf i (by omega)]; congr 1; omega
  · intro _
    rw [hmv.pos, hmv.frame.imemByte, hmv.frame.imemByte]; exact hne
  · intro i hlti
    rw [hbyte, hbyte, if_neg (by omega)]
    split
    · rw [hbuf i (by omega)]
      have := hadj (by omega)
      rwa [show s.pos - s.blen.toNat + i = s.pos - 1 by omega]
    · exact hdiff i (by omega)
  · simp [State.pending_raw htm, State.pending_raw hm, hbytes]
  · obtain ⟨rest, hs, ht'⟩ := hmv.unread
    simp [State.remaining, hs, ht', hm, htm, hrc, htrc, hbytes, encodeFrom, hne, hsat]

/-- SCAN_RAW_NE_FULL (R81): the full buffer becomes a packet, the cursor's byte starts a fresh one. -/
theorem exec_scanRawNeFull_outcome (hm : s.mode = .raw) (hr : s.rawInv)
    (hne : s.imemByte s.pos ≠ s.imemByte (s.pos + 1)) (hsat : s.blen.toNat = 127)
    (h : exec .scanRawNeFull s = .next t) : StepOutcome s t := by
  obtain ⟨hrc, hblen, -⟩ := hr
  have hpend := State.pending_raw hm
  have hmeans : Means (rawBytes s.bufBytes) s.bufBytes := .rawBytes (by simp; omega)
  rcases (exec_scanRawNeFull_next h).overflows_or hi ho hmeans (by simp [hpend]) with h | ⟨hfit, ht⟩
  · exact .inl h
  obtain ⟨htm, htrc, htblen, htbuf⟩ : t.mode = .raw ∧ t.rc = 0#8 ∧ t.blen = 1#8 ∧
      t.buf = s.buf.write 0 (s.imemByte s.pos) := by subst ht; simp [hm, hrc]
  have hmv : Moves s t (rawBytes s.bufBytes) := .of_emitAll hfit (by rw [ht]) (.inr ⟨0, _, by omega, htbuf⟩) hlt
  have hbyte : t.bufByte 0 = s.imemByte s.pos := by simp [State.bufByte, htbuf, Memory.read_write]
  have hbytes : t.bufBytes = [s.imemByte s.pos] := by simp [State.bufBytes, htblen, hbyte]
  refine .inr (.inl ⟨_, hmv, ?_, ⟨_, hmeans, ?_⟩, ?_⟩)
  · simp [State.modeInv, State.rawInv, htm, htblen, htrc, hmv.pos, hmv.frame.chunkLen, hmv.frame.imemByte, hlt, hne, hbyte]
  · simp [State.pending_raw htm, hpend, hbytes]
  · obtain ⟨rest, hs, ht'⟩ := hmv.unread
    simp [State.remaining, hs, ht', hm, htm, hrc, htrc, hbytes, encodeFrom, hne, hsat]

/-- SCAN_REP_EQ (R82): one more copy is pending. -/
theorem exec_scanRepEq_outcome (hm : s.mode = .rep) (hr : s.repInv) (heq : s.imemByte s.pos = s.imemByte (s.pos + 1))
    (hsat : s.rc.toNat ≠ 127) (h : exec .scanRepEq s = .next t) : StepOutcome s t := by
  obtain ⟨hblen, hrc1, hrc, hrcpos, -, hcopies⟩ := hr
  rcases (exec_scanRepEq_next h).overflows_or hi ho .nil (by simp) with h | ⟨hfit, ht⟩
  · exact .inl h
  obtain ⟨htm, htrc, htblen, htbuf⟩ : t.mode = .rep ∧ t.rc = s.rc + 1#8 ∧ t.blen = 0#8 ∧ t.buf = s.buf := by
    subst ht; simp [hm, hblen]
  have hmv : Moves s t [] := .of_emitAll hfit (by rw [ht]) (.inl htbuf) hlt
  have hcount : t.rc.toNat = s.rc.toNat + 1 := by rw [htrc]; simp; omega
  refine .inr (.inl ⟨_, hmv, ⟨by simp [htm], fun _ => ⟨htblen, by omega, by omega, ?_, ?_, ?_⟩⟩, ⟨_, .nil, ?_⟩, ?_⟩)
  · rw [hcount, hmv.pos]; omega
  · rw [hmv.pos, hmv.frame.chunkLen]; exact hlt
  · intro i hlti
    rw [hmv.frame.imemByte, hmv.frame.imemByte, hcount, hmv.pos, ← heq, Nat.add_sub_add_right]
    by_cases hi : i < s.rc.toNat
    · exact hcopies i hi
    · congr 1; omega
  · rw [State.pending_rep htm, State.pending_rep hm, hcount, hmv.pos, hmv.frame.imemByte, ← heq, List.replicate_succ']
    rfl
  · obtain ⟨rest, hs, ht'⟩ := hmv.unread
    simp [State.remaining, hs, ht', hm, htm, hcount, State.bufBytes_eq_nil htblen, encodeFrom, heq, hsat]

/-- SCAN_REP_EQ_SAT (R83): 127 copies become a packet, the cursor's byte is the first of the next ones. -/
theorem exec_scanRepEqSat_outcome (hm : s.mode = .rep) (hr : s.repInv)
    (heq : s.imemByte s.pos = s.imemByte (s.pos + 1)) (hsat : s.rc.toNat = 127) (h : exec .scanRepEqSat s = .next t) :
    StepOutcome s t := by
  obtain ⟨hblen, -⟩ := hr
  have hpend := State.pending_rep hm
  have hmeans := Means.repBytes (k := 127) (by omega) (by omega) (s.imemByte s.pos)
  rcases (exec_scanRepEqSat_next h).overflows_or hi ho hmeans (by simp [hpend, hsat]) with h | ⟨hfit, ht⟩
  · exact .inl h
  obtain ⟨htm, htrc, htblen, htbuf⟩ : t.mode = .rep ∧ t.rc = 1#8 ∧ t.blen = 0#8 ∧ t.buf = s.buf := by
    subst ht; simp [hm, hblen]
  have hmv : Moves s t (repBytes 127 (s.imemByte s.pos)) := .of_emitAll hfit (by rw [ht]) (.inl htbuf) hlt
  refine .inr (.inl ⟨_, hmv, ?_, ⟨_, hmeans, ?_⟩, ?_⟩)
  · exact hmv.modeInv_of_first_copy htm htblen htrc heq
  · simp [State.pending_rep htm, hpend, hsat, htrc, hmv.pos, hmv.frame.imemByte, heq]
  · obtain ⟨rest, hs, ht'⟩ := hmv.unread
    simp [State.remaining, hs, ht', hm, htm, htrc, State.bufBytes_eq_nil htblen, encodeFrom, heq, hsat]

/-- SCAN_REP_NE (R84): the run becomes a packet, and nothing is pending. -/
theorem exec_scanRepNe_outcome (hm : s.mode = .rep) (hr : s.repInv) (hne : s.imemByte s.pos ≠ s.imemByte (s.pos + 1))
    (h : exec .scanRepNe s = .next t) : StepOutcome s t := by
  obtain ⟨hblen, hrc1, hrc, -⟩ := hr
  have hpend := State.pending_rep hm
  have hmeans := Means.repBytes (k := s.rc.toNat + 1) (by omega) (by omega) (s.imemByte s.pos)
  have hnext := exec_scanRepNe_next h
  rw [State.repeatControl_rc hi, if_pos hm] at hnext
  rcases hnext.overflows_or hi ho hmeans (by simp [hpend]) with h | ⟨hfit, ht⟩
  · exact .inl h
  obtain ⟨htm, htrc, htblen, htbuf⟩ : t.mode = .raw ∧ t.rc = 0#8 ∧ t.blen = 0#8 ∧ t.buf = s.buf := by
    subst ht; simp [hblen]
  have hmv : Moves s t (repBytes (s.rc.toNat + 1) (s.imemByte s.pos)) := .of_emitAll hfit (by rw [ht]) (.inl htbuf) hlt
  refine .inr (.inl ⟨_, hmv, ?_, ⟨_, hmeans, ?_⟩, ?_⟩)
  · simp [State.modeInv, State.rawInv, htm, htblen, htrc, hmv.pos, hmv.frame.chunkLen, hmv.frame.imemByte, hlt, hne]
  · simp [State.pending_raw htm, hpend, State.bufBytes_eq_nil htblen, List.replicate_succ']
  · obtain ⟨rest, hs, ht'⟩ := hmv.unread
    simp [State.remaining, hs, ht', hm, htm, htrc, State.bufBytes_eq_nil htblen, encodeFrom, hne]

end

/-- FIN_RAW (R87): the buffer and the last byte become a packet. -/
theorem exec_finRaw_outcome (hm : s.mode = .raw) (hr : s.rawInv) (hlast : s.pos + 1 = s.chunkLen)
    (h : exec .finRaw s = .next t) : StepOutcome s t := by
  obtain ⟨hrc, hblen, -⟩ := hr
  have hpend := State.pending_raw hm
  have hmeans : Means (rawBytes (s.bufBytes ++ [s.imemByte s.pos])) (s.bufBytes ++ [s.imemByte s.pos]) :=
    .rawBytes (by simp; omega)
  rcases (exec_finRaw_next h).overflows_or hi ho hmeans (by simp [hpend]) with h | ⟨hfit, ht⟩
  · exact .inl h
  have hw : Wrote s t (rawBytes (s.bufBytes ++ [s.imemByte s.pos])) :=
    .of_emitAll hfit (by rw [ht]) (.inr ⟨s.blen.toNat, _, by omega, by rw [ht]⟩)
  refine .inr (.inr ⟨_, hw, by rw [ht], by rw [ht], by rw [ht]; simp, by rw [ht]; simp [hrc], hlast, ?_, ?_⟩)
  · rwa [hpend]
  · simp [State.remaining, State.unread_last hlast, hm, encodeFrom]

/-- FIN_REP (R88): the run and the last byte become a packet. -/
theorem exec_finRep_outcome (hm : s.mode = .rep) (hr : s.repInv) (hlast : s.pos + 1 = s.chunkLen)
    (h : exec .finRep s = .next t) : StepOutcome s t := by
  obtain ⟨hblen, hrc1, hrc, -⟩ := hr
  have hpend := State.pending_rep hm
  have hmeans := Means.repBytes (k := s.rc.toNat + 1) (by omega) (by omega) (s.imemByte s.pos)
  have hnext := exec_finRep_next h
  rw [State.repeatControl_rc hi, if_pos hm] at hnext
  rcases hnext.overflows_or hi ho hmeans (by simp [hpend]) with h | ⟨hfit, ht⟩
  · exact .inl h
  have hw : Wrote s t (repBytes (s.rc.toNat + 1) (s.imemByte s.pos)) :=
    .of_emitAll hfit (by rw [ht]) (.inl (by rw [ht]; simp))
  refine .inr (.inr ⟨_, hw, by rw [ht], by rw [ht], by rw [ht]; simp, ?_, hlast, ?_, ?_⟩)
  · rw [ht]; simp [hblen]; omega
  · rwa [hpend, ← List.replicate_succ']
  · simp [State.remaining, State.unread_last hlast, hm, encodeFrom]

end

/-! ### The CORE's step -/

/-- No state that meets the invariant breaks the check of R62. -/
theorem State.Inv.invariantsHold {s : State} (h : s.Inv) (hp : s.phase = .run) : s.invariantsHold = true := by
  obtain ⟨-, -, -, -, hrun⟩ := h
  obtain ⟨hraw, hrep, -⟩ := hrun hp
  refine s.invariantsHold_iff.2 ⟨?_, fun hm => ?_, fun hm => ?_⟩
  · cases hm : s.mode with
    | raw => obtain ⟨-, -, hlt, -⟩ := hraw hm; exact hlt
    | rep => obtain ⟨-, -, -, -, hlt, -⟩ := hrep hm; exact hlt
  · obtain ⟨hrc, hblen, -, hle, -⟩ := hraw hm
    exact ⟨hrc, hblen, hle⟩
  · obtain ⟨hblen, hrc1, hrc, -⟩ := hrep hm
    exact ⟨hblen, hrc1, hrc⟩

theorem State.fin_iff (s : State) : s.fin = true ↔ s.pos + 1 = s.chunkLen := by simp [State.fin]

theorem State.sat_raw {s : State} (h : s.mode = .raw) : s.sat = true ↔ s.blen.toNat = 127 := by
  simp [State.sat, h, maxLen]

theorem State.sat_rep {s : State} (h : s.mode = .rep) : s.sat = true ↔ s.rc.toNat = 127 := by
  simp [State.sat, h, maxLen]

/-- The outcome of the transition selected in RAW. -/
theorem exec_selected_outcome_raw {s t : State} (hi : s.invariantsHold = true) (ho : s.olen ≤ s.cfg.pOmemSize)
    (hm : s.mode = .raw) (hr : s.rawInv) (h : exec s.selected s = .next t) : StepOutcome s t := by
  have hpos := (s.invariantsHold_iff.1 hi).1
  simp only [State.selected, hm, Mode.bit, Bool.false_eq_true, if_false] at h
  split at h
  case isTrue hfin => exact exec_finRaw_outcome hi ho hm hr (s.fin_iff.1 hfin) h
  case isFalse hfin =>
    have hlt : s.pos + 1 < s.chunkLen := by rw [s.fin_iff] at hfin; omega
    split at h
    case isTrue heq => exact exec_scanRawEq_outcome hi ho hlt hm hr heq h
    case isFalse hne =>
      split at h
      case isTrue hsat => exact exec_scanRawNeFull_outcome hi ho hlt hm hr hne ((State.sat_raw hm).1 hsat) h
      case isFalse hsat => exact exec_scanRawNe_outcome hi ho hlt hm hr hne (by rwa [State.sat_raw hm] at hsat) h

/-- The outcome of the transition selected in REPEAT. -/
theorem exec_selected_outcome_rep {s t : State} (hi : s.invariantsHold = true) (ho : s.olen ≤ s.cfg.pOmemSize)
    (hm : s.mode = .rep) (hr : s.repInv) (h : exec s.selected s = .next t) : StepOutcome s t := by
  have hpos := (s.invariantsHold_iff.1 hi).1
  simp only [State.selected, hm, Mode.bit, if_true] at h
  split at h
  case isTrue hfin => exact exec_finRep_outcome hi ho hm hr (s.fin_iff.1 hfin) h
  case isFalse hfin =>
    have hlt : s.pos + 1 < s.chunkLen := by rw [s.fin_iff] at hfin; omega
    split at h
    case isTrue heq =>
      split at h
      case isTrue hsat => exact exec_scanRepEqSat_outcome hi ho hlt hm hr heq ((State.sat_rep hm).1 hsat) h
      case isFalse hsat => exact exec_scanRepEq_outcome hi ho hlt hm hr heq (by rwa [State.sat_rep hm] at hsat) h
    case isFalse hne => exact exec_scanRepNe_outcome hi ho hlt hm hr hne h

/-- From a state that meets the invariant, the CORE's step overflows, advances or finishes. -/
theorem State.Inv.coreTurn_outcome {s t : State} (hs : s.Inv) (hp : s.phase = .run) (h : s.coreTurn = .next t) :
    StepOutcome s t := by
  have hi := hs.invariantsHold hp
  obtain ⟨-, -, ⟨-, -, -, -, ho, -⟩, -, hrun⟩ := hs
  obtain ⟨hraw, hrep, -⟩ := hrun hp
  rcases State.coreTurn_next h with ⟨hn, -⟩ | ⟨-, hex⟩
  · rw [hi] at hn; cases hn
  · cases hm : s.mode with
    | raw => exact exec_selected_outcome_raw hi ho hm (hraw hm) hex
    | rep => exact exec_selected_outcome_rep hi ho hm (hrep hm) hex

end Sys2Proof.Machine
end

section
/-! PROOFS. Every action of the machine keeps the invariant (R121). -/

namespace Sys2Proof.Machine

/-- The invariant does not look at the host's script and values nor at the reader; LEN has its width (R31). -/
theorem State.Inv.withHostSide {s : State} (h : s.Inv) {n : Nat} (hn : n < 2 ^ s.cfg.pCntWidth)
    (script : List HostMove) (received : List Nat) (reader : Reader) :
    (s.withHostSide n script received reader).Inv := by
  obtain ⟨hcfg, hmem, ⟨hrc, hblen, hpos, hlen, holen, hbound, -⟩, hbit, hrun⟩ := h
  exact ⟨hcfg, hmem, ⟨hrc, hblen, hpos, hlen, holen, hbound, hn⟩, hbit, hrun⟩

theorem State.Inv.lenReg_lt {s : State} (h : s.Inv) : s.lenReg < 2 ^ s.cfg.pCntWidth := by
  obtain ⟨-, -, ⟨-, -, -, -, -, -, h⟩, -⟩ := h
  exact h

theorem State.Inv.withScript {s : State} (h : s.Inv) (script : List HostMove) : ({ s with script := script } : State).Inv :=
  h.withHostSide h.lenReg_lt script s.received s.reader

theorem State.Inv.withReader {s : State} (h : s.Inv) (reader : Reader) : ({ s with reader := reader } : State).Inv :=
  h.withHostSide h.lenReg_lt s.script s.received reader

theorem State.Inv.receive {s : State} (h : s.Inv) (v : Nat) : (s.receive v).Inv :=
  h.withHostSide h.lenReg_lt s.script (v :: s.received) s.reader

theorem State.Inv.accept {s : State} (h : s.Inv) (bs : List Byte) : (s.accept bs).Inv := by
  rw [State.accept_eq]; exact h.withReader _

theorem State.Inv.expandRaise {s : State} (h : s.Inv) (f : ExpandFault) : (s.expandRaise f).Inv := by
  rw [State.expandRaise_eq]; exact h.withReader _

/-- A fault is precise (R105): it leaves all that the invariant speaks of but FAULT and FCODE. -/
theorem State.Inv.raise {s : State} (h : s.Inv) {c : FCode} (hc : c ≠ .none) : (s.raise c).Inv := by
  obtain ⟨hcfg, hmem, hrange, ⟨hdone, -⟩, hrun⟩ := h
  exact ⟨hcfg, hmem, hrange, ⟨hdone, by simp [hc]⟩, hrun⟩

theorem State.Inv.performReset {s : State} (h : s.Inv) : s.performReset.Inv := by
  obtain ⟨hcfg, -⟩ := h
  obtain ⟨hmax, hwidth⟩ := hcfg
  refine ⟨⟨hmax, hwidth⟩, ?_, ?_, by simp [State.bitInv], by simp⟩
  · simp [State.memInv, Memory.wf]
  · simp [State.rangeInv]; omega

/-- An accepted START begins at the first byte with nothing written and nothing pending (R101). -/
theorem State.Inv.started {s : State} (h : s.Inv) {n : Nat} (hn : n ≤ s.cfg.pMaxLen) : (s.started n).Inv := by
  obtain ⟨hcfg, hmem, ⟨-, -, -, -, -, -, hlen⟩, ⟨-, hfault⟩, -⟩ := h
  refine ⟨hcfg, hmem, ?_, ⟨by simp, hfault⟩, fun hp => ?_⟩
  · have := hcfg.1
    simp [State.rangeInv, hlen]; omega
  · have hn0 : 0 < n := by simp at hp; omega
    refine (State.runInv_iff _).2 ⟨?_, [], ?_, ?_⟩
    · simp [State.modeInv, State.rawInv, hn0]
    · simpa [State.output] using Means.nil
    · simp [State.pending, State.bufBytes, State.input]

theorem State.Inv.overflows {s t : State} (hs : s.Inv) (h : Overflows s t) : t.Inv := by
  obtain ⟨rfl, -⟩ := h
  exact hs.raise (by simp)

theorem State.modeInv.counters {s : State} (h : s.modeInv) : s.rc.toNat ≤ 128 ∧ s.blen.toNat ≤ 128 := by
  obtain ⟨hraw, hrep⟩ := h
  cases hm : s.mode with
  | raw => obtain ⟨hrc, hblen, -⟩ := hraw hm; exact ⟨by simp [hrc], by omega⟩
  | rep => obtain ⟨hblen, -, hrc, -⟩ := hrep hm; exact ⟨by omega, by simp [hblen]⟩

/-- The part of the invariant that does not depend on which transition wrote. -/
theorem Wrote.inv {s t : State} {bs : List Byte} (h : Wrote s t bs) (hs : s.Inv)
    (hcount : t.rc.toNat ≤ 128 ∧ t.blen.toNat ≤ 128) (hpos : t.pos < s.chunkLen)
    (hbound : s.olen + bs.length ≤ 2 * s.chunkLen) (hdone : t.done = true → t.phase = .idle)
    (hrun : t.phase = .run → t.runInv) : t.Inv := by
  obtain ⟨hcfg, hmem, ⟨-, -, -, hlen, -, -, hlenReg⟩, ⟨-, hfault⟩, -⟩ := hs
  obtain ⟨hfcfg, hfchunk, hffault, hffcode, hflenReg, -⟩ := h.frame
  obtain ⟨holen, -⟩ := h.appended
  refine ⟨by rwa [hfcfg], h.memInv hmem, ⟨hcount.1, hcount.2, ?_, by rwa [hfchunk, hfcfg], ?_, ?_,
    by rwa [hflenReg, hfcfg]⟩, ⟨hdone, by rwa [hffault, hffcode]⟩, hrun⟩
  · rw [hfcfg]; omega
  · rw [holen, hfcfg]; exact h.fits
  · rw [holen, hfchunk]; exact hbound

theorem Advances.runInv {s t : State} {bs : List Byte} (h : Advances s t bs) (hs : s.runInv) : t.runInv := by
  obtain ⟨-, written, hmeans, hw⟩ := s.runInv_iff.1 hs
  obtain ⟨w, hbs, hpend⟩ := h.meaning
  obtain ⟨-, hout, -⟩ := h.appended
  refine t.runInv_iff.2 ⟨h.modeInv, written ++ w, ?_, ?_⟩
  · rw [hout]; exact hmeans.append hbs
  · rw [List.append_assoc, hpend, ← List.append_assoc, hw, h.frame.input, h.pos, State.input_succ]

theorem State.Inv.runInv {s : State} (hs : s.Inv) (hp : s.phase = .run) : s.runInv := by
  obtain ⟨-, -, -, -, h⟩ := hs
  exact h hp

theorem State.Inv.done_eq {s : State} (hs : s.Inv) (hp : s.phase = .run) : s.done = false := by
  obtain ⟨-, -, -, ⟨hdone, -⟩, -⟩ := hs
  simpa [hp] using hdone

theorem State.Inv.advances {s t : State} {bs : List Byte} (hs : s.Inv) (hp : s.phase = .run) (h : Advances s t bs) :
    t.Inv := by
  have hrun := h.runInv (hs.runInv hp)
  have ⟨_, _, _, hbound⟩ := hrun
  obtain ⟨holen, -⟩ := h.appended
  have hlt := h.inside
  rw [holen, h.pos] at hbound
  exact h.inv hs h.modeInv.counters (by rwa [h.pos]) (by omega) (by simp [h.done, hs.done_eq hp]) fun _ => hrun

theorem State.Inv.finishes {s t : State} {bs : List Byte} (hs : s.Inv) (hp : s.phase = .run) (h : Finishes s t bs) :
    t.Inv := by
  obtain ⟨-, -, -, hbound⟩ := hs.runInv hp
  obtain ⟨-, hbs⟩ := h.meaning
  have hlast := h.last
  simp only [List.length_append, List.length_singleton] at hbs
  exact h.inv hs h.counters (by rw [h.pos]; omega) (by omega) (fun _ => h.phase) (by simp [h.phase])

theorem State.Inv.coreTurn {s t : State} (hs : s.Inv) (hp : s.phase = .run) (h : s.coreTurn = .next t) : t.Inv := by
  rcases hs.coreTurn_outcome hp h with h | ⟨bs, h⟩ | ⟨bs, h⟩
  · exact hs.overflows h
  · exact hs.advances hp h
  · exact hs.finishes hp h

/-- START leaves the state, raises one of its faults, or begins a run on a chunk that IMEM holds (R101, R113). -/
theorem execStart_next {s t : State} (h : exec .start s = .next t) :
    t = s ∨ (∃ c, c ≠ .none ∧ t = s.raise c) ∨ (s.lenReg ≤ s.cfg.pMaxLen ∧ t = s.started s.lenReg) := by
  change execStart s = .next t at h
  unfold execStart at h
  split at h
  · cases h; exact .inl rfl
  split at h
  · cases h; exact .inr (.inl ⟨_, by simp, rfl⟩)
  split at h
  · cases h; exact .inr (.inl ⟨_, by simp, rfl⟩)
  rename_i hle
  split at h
  · cases h; exact .inr (.inl ⟨_, by simp, rfl⟩)
  · cases h; exact .inr (.inr ⟨Nat.le_of_not_lt hle, rfl⟩)

theorem State.Inv.exec_start {s t : State} (hs : s.Inv) (h : exec .start s = .next t) : t.Inv := by
  rcases execStart_next h with rfl | ⟨c, hc, rfl⟩ | ⟨hle, rfl⟩
  · exact hs
  · exact hs.raise hc
  · exact hs.started hle

theorem State.Inv.exec_cmdReserved {s t : State} (hs : s.Inv) (h : exec .cmdReserved s = .next t) : t.Inv := by
  change execCmdReserved s = .next t at h
  unfold execCmdReserved at h
  split at h <;> cases h
  · exact hs
  · exact hs.raise (by simp)

/-- The four commands keep the invariant (R63). -/
theorem State.Inv.exec_command {s t : State} (hs : s.Inv) (cmd : BitVec 2) (h : exec (decodeCommand cmd) s = .next t) :
    t.Inv := by
  unfold decodeCommand at h
  split at h
  · cases h; exact hs
  · exact hs.exec_start h
  · exact hs.exec_cmdReserved h
  · cases h; exact hs.performReset

/-- Only packets are read from a byte stream (R54, R55, R57). -/
theorem isPacket_of_decodePacket {bytes rest : List Byte} {i : Instr} (h : decodePacket bytes = .ok (i, rest)) :
    isPacket i = true := by
  cases bytes with
  | nil => cases h
  | cons c bytes =>
    rcases controlByte_cases c with hc | rfl | ⟨hc, hc'⟩
    · rw [decodePacket_raw hc] at h
      split at h <;> cases h
      rfl
    · rw [decodePacket_reserved] at h; cases h; rfl
    · cases bytes with
      | nil => rw [decodePacket_repeat_short hc hc'] at h; cases h
      | cons v bytes => rw [decodePacket_repeat hc hc'] at h; cases h; rfl

/-- A packet acts on the reader only (R71). -/
theorem State.Inv.exec_packet {s t : State} (hs : s.Inv) {i : Instr} (hi : isPacket i = true)
    (h : exec i s = .next t) : t.Inv := by
  cases i <;> cases hi <;> cases h
  · exact hs.accept _
  · exact hs.accept _
  · exact hs.expandRaise _

/-- The reader's turn (R71): nothing to read, a packet cut short, or a packet past which the stream moves. -/
theorem State.Inv.readPacket {s t : State} (hs : s.Inv) (h : s.hostAct .readPacket = .next t) : t.Inv := by
  simp only [State.hostAct, State.nextPacket] at h
  cases hf : s.reader.fault with
  | some f => rw [hf] at h; cases h; exact hs
  | none =>
    rw [hf] at h
    cases hd : decodePacket s.reader.stream with
    | error r =>
      rw [hd] at h
      cases r <;> cases h
      · exact hs
      · exact hs.expandRaise _
    | ok p =>
      rw [hd] at h
      exact (hs.withReader _).exec_packet (isPacket_of_decodePacket hd) h

/-- Storing an input byte while no run is in progress (R36, R126). -/
theorem State.Inv.writeImem {s t : State} (hs : s.Inv) {a : Nat} {b : Byte}
    (h : s.hostAct (.writeImem a b) = .next t) : t.Inv := by
  simp only [State.hostAct] at h
  split at h
  · cases h
  rename_i hp
  split at h <;> cases h
  rename_i ha
  obtain ⟨hcfg, ⟨himem, homem, hbuf, himemLt, homemLt, hbufLt⟩, hrange, hbit, -⟩ := hs
  refine ⟨hcfg, ⟨Memory.write_wf himem a b, homem, hbuf, fun c hc => ?_, homemLt, hbufLt⟩, hrange, hbit,
    fun hp' => absurd hp' hp⟩
  rcases Memory.mem_write hc with rfl | hc
  · exact ha
  · exact himemLt c hc

theorem State.Inv.writeReg {s t : State} (hs : s.Inv) {r : IReg} {v : Nat} (h : s.writeReg r v = .next t) : t.Inv := by
  cases r with
  | ctrl => exact hs.exec_command _ h
  | len =>
    cases h
    exact hs.withHostSide (Nat.mod_lt _ (by positivity)) s.script s.received s.reader
  | status => cases h; exact hs
  | olen => cases h; exact hs

/-- Every host move keeps the invariant (R119). -/
theorem State.Inv.hostAct {s t : State} (hs : s.Inv) {act : HostAct} (h : s.hostAct act = .next t) : t.Inv := by
  cases act with
  | writeImem a b => exact hs.writeImem h
  | writeReg r v => exact hs.writeReg h
  | readReg r =>
    simp only [State.hostAct] at h
    split at h <;> cases h
    exact hs.receive _
  | readOmem a =>
    simp only [State.hostAct] at h
    split at h
    · cases h
    split at h <;> cases h
    exact hs.receive _
  | wait => cases h; exact hs.receive _
  | powerOn => cases h; exact hs.performReset
  | collect =>
    simp only [State.hostAct] at h
    split at h <;> cases h
    exact hs.withReader _
  | feed bytes => cases h; exact hs.withReader _
  | readPacket => exact hs.readPacket h

theorem State.coreEnabled_iff (s : State) : s.coreEnabled = true ↔ s.phase = .run ∧ s.fault = false := by
  simp [State.coreEnabled]

/-- Whoever's turn it is (R121), the invariant is kept. -/
theorem State.Inv.step {s t : State} (hs : s.Inv) (h : step s = .next t) : t.Inv := by
  have hcore : ∀ u : State, u.Inv → u.coreEnabled = true → u.coreTurn = .next t → t.Inv := fun u hu he hc =>
    hu.coreTurn (u.coreEnabled_iff.1 he).1 hc
  change s.turn = .next t at h
  rcases s.turn_cases with ⟨-, he, e⟩ | ⟨-, -, -, e⟩ | ⟨-, -, -, e⟩ | ⟨m, rest, -, he, -, e⟩ | ⟨-, -, -, -, he, e⟩ |
    ⟨-, -, -, -, -, e⟩ | ⟨m, rest, -, -, -, e⟩ <;> rw [e] at h
  · exact hcore s hs he h
  · cases h
  · cases h; exact hs
  · exact hcore _ (hs.withScript ({ m with after := m.after - 1 } :: rest)) he h
  · exact hcore s hs he h
  · cases h; exact hs
  · exact (hs.withScript _).hostAct h

/-- Settles O46: each turn of R121 is a step of the CORE, which overflows, advances or finishes, or a move of the host. -/
theorem stepKeepsTheInvariant : Obligations.StepKeepsTheInvariant := fun _ _ hs h => hs.step h

end Sys2Proof.Machine
end

section
/-! PROOFS. A run left alone finishes the document's scan, so that its output depends on the chunk alone (R2, R85, R99). -/

namespace Sys2Proof.Machine

theorem State.orOverflow_isNext (s : State) (w : Option State) (k : State → State) :
    ∃ t, s.orOverflow w k = .next t := by
  rcases s.orOverflow_spec w k with ⟨u, -, e⟩ | ⟨-, e⟩ <;> exact ⟨_, e⟩

theorem State.isTransition_selected (s : State) : isTransition s.selected = true := by
  unfold State.selected
  split_ifs <;> rfl

/-- In a run that has not faulted a transition of the CORE answers a next state (R77, R78). -/
theorem exec_transition_isNext {i : Instr} {s : State} (hi : isTransition i = true) (h : s.coreReady) :
    ∃ t, exec i s = .next t := by
  obtain ⟨hp, hf, hinv, hl⟩ := h
  have hcore := State.coreStep_ready hp hf hinv
  have hcursor := State.withCursorByte_eq hinv hl
  cases i <;> cases hi
  case scanRawNe => exact ⟨_, (hcore _).trans (hcursor _)⟩
  case scanRawNeFull => simpa [exec, execScanRawNeFull, hcore, hcursor] using s.orOverflow_isNext _ _
  case scanRawEq => simpa [exec, execScanRawEq, hcore] using s.orOverflow_isNext _ _
  case scanRepNe => simpa [exec, execScanRepNe, hcore, hcursor] using s.orOverflow_isNext _ _
  case scanRepEq => exact ⟨_, hcore _⟩
  case scanRepEqSat => simpa [exec, execScanRepEqSat, hcore, hcursor] using s.orOverflow_isNext _ _
  case finRaw => simpa [exec, execFinRaw, hcore, hcursor] using s.orOverflow_isNext _ _
  case finRep => simpa [exec, execFinRep, hcore, hcursor] using s.orOverflow_isNext _ _

/-- A run in progress, left alone, with an OMEM of the recommended size (R98). -/
structure State.Running (s : State) : Prop where
  inv : s.Inv
  phase : s.phase = .run
  fault : s.fault = false
  script : s.script = []
  room : 2 * s.cfg.pMaxLen ≤ s.cfg.pOmemSize

/-- With the recommended size there is no overflow (R98, R111). -/
theorem State.Running.not_overflows {s t : State} (h : s.Running) : ¬ Overflows s t := by
  rintro ⟨-, n, hfit, hn⟩
  obtain ⟨-, -, -, hbound⟩ := h.inv.runInv h.phase
  have hpos := (s.invariantsHold_iff.1 (h.inv.invariantsHold h.phase)).1
  obtain ⟨-, -, ⟨-, -, -, hlen, -⟩, -⟩ := h.inv
  have := h.room
  omega

/-- The CORE's step in such a run: on to the next byte, or the end of the run. -/
theorem State.Running.step {s : State} (h : s.Running) :
    ∃ t bs, step s = .next t ∧ (Advances s t bs ∧ t.Running ∨ Finishes s t bs) := by
  have hi := h.inv.invariantsHold h.phase
  obtain ⟨-, -, ⟨-, -, -, hlen, -⟩, -⟩ := h.inv
  obtain ⟨t, ht⟩ := exec_transition_isNext s.isTransition_selected ⟨h.phase, h.fault, hi, hlen⟩
  rw [← State.coreTurn_eq hi hlen] at ht
  have hstep : Machine.step s = .next t := (State.turn_core h.script (s.coreEnabled_iff.2 ⟨h.phase, h.fault⟩)).trans ht
  rcases h.inv.coreTurn_outcome h.phase ht with hov | ⟨bs, hadv⟩ | ⟨bs, hfin⟩
  · exact absurd hov h.not_overflows
  · obtain ⟨hcfg, -, hfault, -, -, -, -, -, hscript, -⟩ := hadv.frame
    exact ⟨t, bs, hstep, .inl ⟨hadv, h.inv.step hstep, hadv.phase.trans h.phase, hfault.trans h.fault,
      hscript.trans h.script, by rw [hcfg]; exact h.room⟩⟩
  · exact ⟨t, bs, hstep, .inr hfin⟩

theorem core_run_succ {s u : State} (h : step s = .next u) (k : Nat) : core.run (k + 1) s = core.run k u := by
  simp [Host.Core.run, show core.step s = .next u from h]

/-- A run left alone ends after one step for each unread byte, and writes what the document's scan writes from there (R85,
R134). -/
theorem State.Running.finishes {n : Nat} {s : State} (h : s.Running) (hn : s.chunkLen - s.pos = n) :
    ∃ t : State, core.run n s = .next t ∧ t.done = true ∧ t.phase = .idle ∧ t.fault = false ∧
      t.output = s.output ++ s.remaining := by
  induction n generalizing s with
  | zero =>
    have hpos := (s.invariantsHold_iff.1 (h.inv.invariantsHold h.phase)).1
    omega
  | succ n ih =>
    obtain ⟨u, bs, hstep, ⟨hadv, hu⟩ | hfin⟩ := h.step
    · obtain ⟨-, hout, -⟩ := hadv.appended
      obtain ⟨t, hrun, hdone, hidle, hfault, ht⟩ := ih hu (by rw [hadv.frame.chunkLen, hadv.pos]; omega)
      exact ⟨t, (core_run_succ hstep n).trans hrun, hdone, hidle, hfault,
        by rw [ht, hout, hadv.scan, List.append_assoc]⟩
    · obtain ⟨-, hout, -⟩ := hfin.appended
      obtain ⟨-, -, hfault, -⟩ := hfin.frame
      obtain rfl : n = 0 := by have := hfin.last; omega
      exact ⟨u, core_run_succ hstep 0, hfin.done, hfin.phase, hfault.trans h.fault, by rw [hout, hfin.scan]⟩

theorem State.inputOutOfRange_eq (s : State) (n : Nat) : s.inputOutOfRange n = false := by
  simp only [State.inputOutOfRange, List.any_eq_false, decide_eq_true_eq]
  intro b _
  omega

/-- START on a chunk that IMEM holds is accepted (R101, R107). -/
theorem exec_start_accepted {s : State} (hp : s.phase = .idle) (hf : s.fault = false) (hl : s.lenReg ≤ s.cfg.pMaxLen) :
    exec .start s = .next (s.started s.lenReg) := by
  change execStart s = _
  simp [execStart, hf, hp, State.startOperand, State.inputOutOfRange_eq, Nat.not_lt.2 hl]

/-- A started run writes the document's encoding of the chunk (R2, R85, R99). -/
theorem started_run_encodes {s : State} (hs : s.Inv) (hp : s.phase = .idle) (hf : s.fault = false)
    (hscript : s.script = []) (h1 : 1 ≤ s.lenReg) (hl : s.lenReg ≤ s.cfg.pMaxLen)
    (hroom : 2 * s.cfg.pMaxLen ≤ s.cfg.pOmemSize) :
    ∃ u t : State, exec .start s = .next u ∧ core.run s.lenReg u = .next t ∧ t.done = true ∧
      t.phase = .idle ∧ t.fault = false ∧ t.output = encodeChunk (s.input s.lenReg) := by
  have hrun : (s.started s.lenReg).Running :=
    ⟨hs.started hl, by simp; omega, hf, hscript, hroom⟩
  obtain ⟨t, ht⟩ := hrun.finishes (n := s.lenReg) (by simp)
  exact ⟨_, t, exec_start_accepted hp hf hl, ht⟩

/-- Settles O60: both runs write the document's encoding of their chunk, and the chunks are equal. -/
theorem encodingDependsOnTheChunkOnly : Obligations.EncodingDependsOnTheChunkOnly := by
  intro s s' hs hs' hp hp' hf hf' hscript hscript' h1 hl hl' hroom hroom' hin
  have hlen : s.lenReg = s'.lenReg := by simpa using congrArg List.length hin
  obtain ⟨u, t, hu, ht, hdone, -, -, hout⟩ := started_run_encodes hs hp hf hscript h1 hl hroom
  obtain ⟨u', t', hu', ht', hdone', -, -, hout'⟩ := started_run_encodes hs' hp' hf' hscript' (hlen ▸ h1) hl' hroom'
  have heq : t.output = t'.output := by rw [hout, hout', hin]
  exact ⟨u, u', t, t', hu, hu', ht, ht', hdone, hdone', heq, by simpa using congrArg List.length heq⟩

end Sys2Proof.Machine
end

section
/-! SUPPORT. What a step can do, said once (R121). -/

namespace Sys2Proof.Machine

/-- What one atomic action makes of a state, once the host's script has moved on (R121). -/
inductive Action (s : State) : State → Prop
  /-- Nothing of the block changes: the host waits, reads, or moves the reader. -/
  | hostSide (script : List HostMove) (received : List Nat) (reader : Reader) :
      Action s (s.withHostSide s.lenReg script received reader)
  /-- The host writes LEN (R31). -/
  | writeLen (v : Nat) : Action s { s with lenReg := v % 2 ^ s.cfg.pCntWidth }
  /-- The host stores an input byte while no run is in progress (R126). -/
  | writeImem {a : Nat} (b : Byte) (hp : s.phase ≠ .run) (ha : a < s.cfg.pMaxLen) :
      Action s { s with imem := s.imem.write a b }
  /-- A fault is raised (R104). -/
  | raise {c : FCode} (hc : c ≠ .none) : Action s (s.raise c)
  /-- START is accepted (R101). -/
  | started (hl : s.lenReg ≤ s.cfg.pMaxLen) : Action s (s.started s.lenReg)
  /-- The block is reset (R102, R123). -/
  | performReset : Action s s.performReset
  /-- The CORE makes a transition (R78). -/
  | transition {i : Instr} {t : State} (hi : isTransition i = true) (h : exec i s = .next t) : Action s t

theorem Action.refl (s : State) : Action s s := .hostSide s.script s.received s.reader

theorem Action.receive (s : State) (v : Nat) : Action s (s.receive v) := .hostSide s.script (v :: s.received) s.reader

theorem Action.withReader (s : State) (reader : Reader) : Action s { s with reader := reader } :=
  .hostSide s.script s.received reader

theorem Action.coreTurn {s t : State} (h : s.coreTurn = .next t) : Action s t := by
  rcases State.coreTurn_next h with ⟨-, rfl⟩ | ⟨-, hex⟩
  · exact .raise (by simp)
  · exact .transition s.isTransition_selected hex

theorem execCmdReserved_next {s t : State} (h : exec .cmdReserved s = .next t) : t = s ∨ t = s.raise .badCmd := by
  change execCmdReserved s = .next t at h
  unfold execCmdReserved at h
  split at h <;> cases h
  · exact .inl rfl
  · exact .inr rfl

theorem Action.exec_command {s t : State} (cmd : BitVec 2) (h : exec (decodeCommand cmd) s = .next t) : Action s t := by
  unfold decodeCommand at h
  split at h
  · cases h; exact .refl s
  · rcases execStart_next h with rfl | ⟨c, hc, rfl⟩ | ⟨hl, rfl⟩
    · exact .refl _
    · exact .raise hc
    · exact .started hl
  · rcases execCmdReserved_next h with rfl | rfl
    · exact .refl _
    · exact .raise (by simp)
  · cases h; exact .performReset

/-- A packet acts on the reader only (R71). -/
theorem exec_packet_readerOnly {i : Instr} {s t : State} (hi : isPacket i = true) (h : exec i s = .next t) :
    ReaderOnly s t := by
  cases i <;> cases hi <;> cases h
  · exact s.accept_eq _
  · exact s.accept_eq _
  · exact s.expandRaise_eq _

/-- The reader's turn acts on the reader only: past a packet and with its meaning, or with Expand's fault (R71). -/
theorem hostAct_readPacket_readerOnly {s t : State} (h : s.hostAct .readPacket = .next t) : ReaderOnly s t := by
  simp only [State.hostAct, State.nextPacket] at h
  cases hf : s.reader.fault with
  | some f => rw [hf] at h; cases h; rfl
  | none =>
    rw [hf] at h
    cases hd : decodePacket s.reader.stream with
    | error r =>
      rw [hd] at h
      cases r <;> cases h
      · rfl
      · exact s.expandRaise_eq _
    | ok p =>
      rw [hd] at h
      exact (exec_packet_readerOnly (isPacket_of_decodePacket hd) h :)

theorem Action.of_readerOnly {s t : State} (h : ReaderOnly s t) : Action s t := by
  rw [h]; exact .withReader s _

theorem Action.writeReg {s t : State} {r : IReg} {v : Nat} (h : s.writeReg r v = .next t) : Action s t := by
  cases r with
  | ctrl => exact .exec_command _ h
  | len => cases h; exact .writeLen v
  | status => cases h; exact .refl s
  | olen => cases h; exact .refl s

theorem Action.hostAct {s t : State} {act : HostAct} (h : s.hostAct act = .next t) : Action s t := by
  cases act with
  | writeImem a b =>
    simp only [State.hostAct] at h
    split at h
    · cases h
    · split at h <;> cases h
      exact .writeImem b ‹_› ‹_›
  | writeReg r v => exact .writeReg h
  | readReg r =>
    simp only [State.hostAct] at h
    split at h <;> cases h
    exact .receive s _
  | readOmem a =>
    simp only [State.hostAct] at h
    split at h
    · cases h
    · split at h <;> cases h
      exact .receive s _
  | wait => cases h; exact .receive s _
  | powerOn => cases h; exact .performReset
  | collect =>
    simp only [State.hostAct] at h
    split at h <;> cases h
    exact .withReader s _
  | feed bytes => cases h; exact .withReader s _
  | readPacket => exact .of_readerOnly (hostAct_readPacket_readerOnly h)

/-- Each step is one action, on the state with the script moved on (R121). -/
theorem step_action {s t : State} (h : step s = .next t) :
    ∃ script, Action { s with script := script } t := by
  change s.turn = .next t at h
  rcases s.turn_cases with ⟨-, -, e⟩ | ⟨-, -, -, e⟩ | ⟨-, -, -, e⟩ | ⟨_, _, -, -, -, e⟩ | ⟨-, -, -, -, -, e⟩ |
    ⟨-, -, -, -, -, e⟩ | ⟨_, _, -, -, -, e⟩ <;> rw [e] at h
  · exact ⟨s.script, .coreTurn h⟩
  · cases h
  · cases h; exact ⟨s.script, .refl s⟩
  · exact ⟨_, .coreTurn h⟩
  · exact ⟨s.script, .coreTurn h⟩
  · cases h; exact ⟨s.script, .refl s⟩
  · exact ⟨_, .hostAct h⟩

/-- A transition raises a fault, or has its effect: past the check of R62, and with a packet that fits. -/
theorem TransitionNext.raises_or {s t : State} {bs : List Byte} {upd : State → State} (h : TransitionNext s t bs upd) :
    (∃ c, t = s.raise c) ∨
      (s.invariantsHold = true ∧ (bs ≠ [] → s.fits bs.length) ∧ t = upd (s.emitAll bs)) := by
  obtain ⟨-, -, ⟨-, rfl⟩ | ⟨-, -, -, rfl⟩ | h⟩ := h
  · exact .inl ⟨_, rfl⟩
  · exact .inl ⟨_, rfl⟩
  · exact .inr h

end Sys2Proof.Machine
end

section
/-! PROOFS. Every action keeps the byte stores canonical and within their addresses (R17, R36, R39). -/

namespace Sys2Proof.Machine

theorem Memory.write_lt {m : Memory} {n a : Nat} (h : ∀ c ∈ m, c.1 < n) (ha : a < n) (b : Byte) :
    ∀ c ∈ m.write a b, c.1 < n := by
  intro c hc
  rcases Memory.mem_write hc with rfl | hc
  · exact ha
  · exact h c hc

theorem State.memInv.writeBuf {s : State} (h : s.memInv) {i : Nat} (hi : i < 128) (b : Byte) :
    ({ s with buf := s.buf.write i b } : State).memInv := by
  obtain ⟨himem, homem, hbuf, himemLt, homemLt, hbufLt⟩ := h
  exact ⟨himem, homem, Memory.write_wf hbuf i b, himemLt, homemLt, Memory.write_lt hbufLt hi b⟩

theorem State.memInv.writeImem {s : State} (h : s.memInv) {a : Nat} (ha : a < s.cfg.pMaxLen) (b : Byte) :
    ({ s with imem := s.imem.write a b } : State).memInv := by
  obtain ⟨himem, homem, hbuf, himemLt, homemLt, hbufLt⟩ := h
  exact ⟨Memory.write_wf himem a b, homem, hbuf, Memory.write_lt himemLt ha b, homemLt, hbufLt⟩

theorem State.memInv_performReset (s : State) : s.performReset.memInv := by simp [State.memInv, Memory.wf]

/-- A transition keeps the stores where its update, which follows the packet's bytes, does. -/
theorem TransitionNext.memInv {s t : State} {bs : List Byte} {upd : State → State} (h : TransitionNext s t bs upd)
    (hs : s.memInv) (hupd : s.blen.toNat < 128 → ∀ u : State, u.buf = s.buf → u.memInv → (upd u).memInv) :
    t.memInv := by
  rcases h.raises_or with ⟨c, rfl⟩ | ⟨hi, hfit, rfl⟩
  · exact hs
  · refine hupd (Nat.lt_succ_of_le (State.invariantsHold_blen hi)) _ (s.emitAll_buf bs) ?_
    by_cases hbs : bs = []
    · subst hbs; exact hs
    · exact State.emitAll_memInv (hfit hbs) hs

theorem State.memInv.exec_transition {s t : State} (hs : s.memInv) {i : Instr} (hi : isTransition i = true)
    (h : exec i s = .next t) : t.memInv := by
  cases i <;> cases hi
  case scanRawNe => exact (exec_scanRawNe_next h).memInv hs fun hlt _ hb hu => hb ▸ hu.writeBuf hlt _
  case scanRawNeFull => exact (exec_scanRawNeFull_next h).memInv hs fun _ _ hb hu => hb ▸ hu.writeBuf (by omega) _
  case scanRawEq => exact (exec_scanRawEq_next h).memInv hs fun _ _ _ hu => hu
  case scanRepNe => exact (exec_scanRepNe_next h).memInv hs fun _ _ _ hu => hu
  case scanRepEq => exact (exec_scanRepEq_next h).memInv hs fun _ _ _ hu => hu
  case scanRepEqSat => exact (exec_scanRepEqSat_next h).memInv hs fun _ _ _ hu => hu
  case finRaw => exact (exec_finRaw_next h).memInv hs fun hlt _ hb hu => hb ▸ hu.writeBuf hlt _
  case finRep => exact (exec_finRep_next h).memInv hs fun _ _ _ hu => hu

/-- BUF and OMEM are written by transitions only, IMEM by the host only. -/
theorem State.memInv.action {s t : State} (hs : s.memInv) (h : Action s t) : t.memInv := by
  cases h with
  | hostSide => exact hs
  | writeLen => exact hs
  | writeImem b _ ha => exact hs.writeImem ha b
  | raise => exact hs
  | started => exact hs
  | performReset => exact s.memInv_performReset
  | transition hi h => exact hs.exec_transition hi h

/-- Settles O45: a step is one action, and each action keeps the stores. -/
theorem stepKeepsStoresCanonical : Obligations.StepKeepsStoresCanonical := by
  intro s t hs h
  obtain ⟨script, hact⟩ := step_action h
  have hs' : ({ s with script := script } : State).memInv := hs
  exact hs'.action hact

end Sys2Proof.Machine
end

section
/-! PROOFS. The registers of the block: who writes MODE, RC and BUF, what a reset gives, and what the host reads and writes
(R15 to R17, R31, R32, R34, R65, R123). -/

namespace Sys2Proof.Machine

/-! ### The writers of MODE, RC and BUF -/

/-- A packet leaves the three alone (R71). -/
theorem ReaderOnly.mode_rc_buf {s t : State} (h : ReaderOnly s t) : t.mode = s.mode ∧ t.rc = s.rc ∧ t.buf = s.buf := by
  rw [h]; exact ⟨rfl, rfl, rfl⟩

/-- Settles O47: a packet touches the reader only, a fault FAULT and FCODE only, and the update of each transition and
command names the registers it writes. -/
theorem onlyTheirWritersChangeModeRcBuf : Obligations.OnlyTheirWritersChangeModeRcBuf := by
  intro i s t h
  have packet : isPacket i = true → t.mode = s.mode ∧ t.rc = s.rc ∧ t.buf = s.buf := fun hi =>
    (exec_packet_readerOnly hi h).mode_rc_buf
  cases i with
  | pktRaw n lits => simp [packet rfl]
  | pktRepeat m v => simp [packet rfl]
  | pktReserved => simp [packet rfl]
  | scanRawNe => rcases (exec_scanRawNe_next h).raises_or with ⟨c, rfl⟩ | ⟨-, -, rfl⟩ <;> simp
  | scanRawNeFull => rcases (exec_scanRawNeFull_next h).raises_or with ⟨c, rfl⟩ | ⟨-, -, rfl⟩ <;> simp
  | scanRawEq => rcases (exec_scanRawEq_next h).raises_or with ⟨c, rfl⟩ | ⟨-, -, rfl⟩ <;> simp
  | scanRepNe => rcases (exec_scanRepNe_next h).raises_or with ⟨c, rfl⟩ | ⟨-, -, rfl⟩ <;> simp
  | scanRepEq => rcases (exec_scanRepEq_next h).raises_or with ⟨c, rfl⟩ | ⟨-, -, rfl⟩ <;> simp
  | scanRepEqSat => rcases (exec_scanRepEqSat_next h).raises_or with ⟨c, rfl⟩ | ⟨-, -, rfl⟩ <;> simp
  | finRaw => rcases (exec_finRaw_next h).raises_or with ⟨c, rfl⟩ | ⟨-, -, rfl⟩ <;> simp
  | finRep => rcases (exec_finRep_next h).raises_or with ⟨c, rfl⟩ | ⟨-, -, rfl⟩ <;> simp
  | nop => cases h; simp
  | start => rcases execStart_next h with rfl | ⟨c, -, rfl⟩ | ⟨-, rfl⟩ <;> simp
  | cmdReserved => rcases execCmdReserved_next h with rfl | rfl <;> simp
  | reset => simp

/-! ### Reset -/

/-- The host makes a move that it neither delays nor waits at (R121). -/
theorem State.turn_hostAct {s : State} {m : HostMove} {rest : List HostMove} (hs : s.script = m :: rest)
    (hw : s.waiting m.act = false) (ha : s.coreEnabled = true → m.after = 0) :
    s.turn = State.hostAct { s with script := rest } m.act := by
  have hnow : (s.coreEnabled && decide (0 < m.after)) = false := by
    cases he : s.coreEnabled with
    | false => rfl
    | true => simp [ha he]
  simp [State.turn, hs, hw, hnow]

/-- Settles O28: the reset column is that of `State.reset`, and a power-on reset is never waited at. -/
theorem powerOnResetState : Obligations.PowerOnResetState := by
  refine ⟨by decide, fun s m rest hs hm ha => ?_⟩
  have hw : s.waiting m.act = false := by simp [State.waiting, hm]
  calc step s = State.hostAct { s with script := rest } m.act := State.turn_hostAct hs hw ha
    _ = exec .reset { s with script := rest } := by rw [hm]; rfl

/-- Settles O44: nothing is listed, every counter is 0, and no run is in progress. -/
theorem resetMeetsTheInvariant : Obligations.ResetMeetsTheInvariant := by
  obtain ⟨himem, homem, hbuf⟩ := State.reset_memory_wf
  refine ⟨by decide, ⟨himem, homem, hbuf, ?_, ?_, ?_⟩, by decide, by decide, fun hp => by cases hp⟩ <;>
    simp [State.reset]

/-! ### The interface registers -/

/-- A read returns the register's value, that of OLEN only where no unfaulted run is in progress (R31, R48). -/
theorem State.hostAct_readReg {s : State} {r : IReg} (h : r = .olen → s.coreEnabled = false) :
    s.hostAct (.readReg r) = .next { s with received := s.regValue r :: s.received } := by
  have hset : ¬ (r = .olen ∧ s.outputUnsettled = true) := by
    rintro ⟨hr, hu⟩
    rw [State.outputUnsettled, h hr] at hu
    cases hu
  simp [State.hostAct, hset, State.receive]

theorem State.hostAct_writeReg_len {s : State} {v : Nat} (hv : v < 2 ^ s.cfg.pCntWidth) :
    s.hostAct (.writeReg .len v) = .next { s with lenReg := v } := by
  simp [State.hostAct, State.writeReg, Nat.mod_eq_of_lt hv]

theorem State.hostAct_writeReg_status (s : State) (v : Nat) : s.hostAct (.writeReg .status v) = .next s := rfl

theorem State.hostAct_writeReg_olen (s : State) (v : Nat) : s.hostAct (.writeReg .olen v) = .next s := rfl

/-- Settles O34, one register at a time. -/
theorem interfaceRegisters : Obligations.InterfaceRegisters := fun s =>
  ⟨s.hostAct_readReg (r := .ctrl) (by simp), s.hostAct_readReg (r := .len) (by simp),
    s.hostAct_readReg (r := .status) (by simp), fun h => s.hostAct_readReg (r := .olen) fun _ => h,
    fun _ hv => s.hostAct_writeReg_len hv, s.hostAct_writeReg_status, s.hostAct_writeReg_olen⟩

/-! ### STATUS -/

theorem Mode.bit_eq (m : Mode) : m.bit = decide (m = .rep) := by cases m <;> rfl

/-- STATUS from the top: 0 and FCODE, then one bit after the other (R32). -/
theorem State.status_getLsbD (s : State) (i : Nat) :
    s.status.getLsbD i =
      (((((0#1 ++ s.fcode.bits).concat s.fault).concat s.mode.bit).concat (decide (s.phase = .run))).concat
        s.done).getLsbD i := rfl

theorem State.status_done (s : State) : s.status.getLsbD 0 = s.done := by
  rw [s.status_getLsbD]; simp

theorem State.status_busy (s : State) : s.status.getLsbD 1 = decide (s.phase = .run) := by
  rw [s.status_getLsbD]; simp

theorem State.status_mode (s : State) : s.status.getLsbD 2 = decide (s.mode = .rep) := by
  rw [s.status_getLsbD]; simp [Mode.bit_eq]

theorem State.status_fault (s : State) : s.status.getLsbD 3 = s.fault := by
  rw [s.status_getLsbD]; simp

/-- Bits 6:4 and 7 are those of `0#1 ++ FCODE`. -/
theorem State.status_getLsbD_add_four (s : State) (i : Nat) :
    s.status.getLsbD (4 + i) = (0#1 ++ s.fcode.bits).getLsbD i := by
  simp only [s.status_getLsbD, Nat.add_comm 4 i, BitVec.getLsbD_concat_succ]

theorem State.status_top (s : State) : s.status.getLsbD 7 = false := by
  rw [s.status_getLsbD_add_four 3, BitVec.getLsbD_append]
  simp

theorem State.status_fcode (s : State) : s.status.extractLsb' 4 3 = s.fcode.bits := by
  ext i hi
  rw [BitVec.getElem_extractLsb', s.status_getLsbD_add_four, BitVec.getLsbD_append, if_pos hi,
    BitVec.getLsbD_eq_getElem hi]

/-- DONE and BUSY are exclusive (R22, R32). -/
theorem State.Inv.not_done_and_busy {s : State} (hs : s.Inv) :
    ¬ (s.status.getLsbD 0 = true ∧ s.status.getLsbD 1 = true) := by
  rw [s.status_done, s.status_busy]
  rintro ⟨hdone, hbusy⟩
  simp [hs.done_eq (of_decide_eq_true hbusy)] at hdone

/-- Settles O33: each field by its position, and the numbers of R103 by the codes. -/
theorem statusByteFields : Obligations.StatusByteFields := by
  refine ⟨fun s hs => hs.not_done_and_busy, fun s => ⟨s.status_done, s.status_busy, s.status_mode, s.status_fault,
    s.status_fcode, ?_, s.status_top, s.hostAct_readReg (r := .status) (by simp), s.hostAct_writeReg_status⟩⟩
  rw [s.status_fcode]
  cases s.fcode <;> rfl

end Sys2Proof.Machine
end

section
/-! SUPPORT. What a transition of the CORE writes, said once: at most one packet and the registers of the scan, or a fault
(R44, R73, R74, R91). -/

namespace Sys2Proof.Machine

/-! ### Bytes that are one packet -/

theorem rawByte_toNat_append (n : BitVec 7) : (0#1 ++ n : BitVec 8).toNat = n.toNat := by
  rw [BitVec.toNat_append]; simp

theorem repByte_toNat_append (m : BitVec 7) : (1#1 ++ m : BitVec 8).toNat = 128 + m.toNat := by
  rw [BitVec.toNat_append, ← Nat.shiftLeft_add_eq_or_of_lt m.isLt]
  rfl

/-- The control byte of 1 to 128 literals is `n`, their count less one (R54). -/
theorem packetBytes_raw {lits : List Byte} (h0 : lits ≠ []) (h : lits.length ≤ 128) :
    packetBytes (.raw lits) = rawBytes lits := by
  have hc : (0#1 ++ BitVec.ofNat 7 (lits.length - 1) : BitVec 8) = BitVec.ofNat 8 (lits.length - 1) := by
    apply BitVec.eq_of_toNat_eq
    rw [rawByte_toNat_append, BitVec.toNat_ofNat, BitVec.toNat_ofNat]
    omega
  rw [rawBytes, if_neg h0, ← hc]
  rfl

theorem boundedPacket_raw {lits : List Byte} (h0 : lits ≠ []) (h : lits.length ≤ 128) :
    boundedPacket (.raw lits) = true := by
  have := List.length_pos_iff.2 h0
  simp only [Instr.raw, boundedPacket, BitVec.toNat_ofNat, decide_eq_true_eq]
  omega

/-- The control byte of 2 to 128 copies is `257 - k` (R55, R66). -/
theorem repByte_ofNat {k : Nat} (h1 : 2 ≤ k) (h2 : k ≤ 128) :
    (1#1 ++ BitVec.ofNat 7 (129 - k) : BitVec 8) = BitVec.ofNat 8 (257 - k) := by
  apply BitVec.eq_of_toNat_eq
  rw [repByte_toNat_append, BitVec.toNat_ofNat, BitVec.toNat_ofNat]
  omega

theorem packetBytes_rep {k : Nat} (h1 : 2 ≤ k) (h2 : k ≤ 128) (v : Byte) : packetBytes (.rep k v) = repBytes k v := by
  rw [repBytes, ← repByte_ofNat h1 h2]
  rfl

theorem boundedPacket_rep {k : Nat} (h1 : 2 ≤ k) (h2 : k ≤ 128) (v : Byte) : boundedPacket (.rep k v) = true := by
  have hk : repeatCount (BitVec.ofNat 7 (129 - k)) = k := by
    rw [repeatCount, repByte_toNat_append, BitVec.toNat_ofNat]
    omega
  simp only [Instr.rep, boundedPacket, hk, decide_eq_true_eq]
  exact ⟨h1, h2⟩

/-- The bytes are none, or those of one packet within the bounds of R73. -/
def AtMostOnePacket (bs : List Byte) : Prop := bs = [] ∨ ∃ i, boundedPacket i = true ∧ bs = packetBytes i

theorem AtMostOnePacket.nil : AtMostOnePacket [] := .inl rfl

theorem AtMostOnePacket.rawBytes {lits : List Byte} (h : lits.length ≤ 128) : AtMostOnePacket (rawBytes lits) := by
  by_cases h0 : lits = []
  · subst h0; exact .nil
  · exact .inr ⟨.raw lits, boundedPacket_raw h0 h, (packetBytes_raw h0 h).symm⟩

theorem AtMostOnePacket.repBytes {k : Nat} (h1 : 2 ≤ k) (h2 : k ≤ 128) (v : Byte) : AtMostOnePacket (repBytes k v) :=
  .inr ⟨.rep k v, boundedPacket_rep h1 h2 v, (packetBytes_rep h1 h2 v).symm⟩

/-! ### The writes of a transition -/

section
variable {s : State} (hi : s.invariantsHold = true)
include hi

theorem State.atMostOnePacket_bufBytes : AtMostOnePacket (rawBytes s.bufBytes) :=
  .rawBytes (by have := State.invariantsHold_blen hi; simp; omega)

theorem State.atMostOnePacket_bufBytes_append (b : Byte) : AtMostOnePacket (rawBytes (s.bufBytes ++ [b])) :=
  .rawBytes (by have := State.invariantsHold_blen hi; simp; omega)

/-- In REPEAT the count is 2 to 128. In RAW, where the selector never asks for it, RC = 0 and the two bytes are a raw packet
of one literal. -/
theorem State.atMostOnePacket_repeatControl (v : Byte) : AtMostOnePacket [repeatControl (s.rc.toNat + 1), v] := by
  rw [State.repeatControl_rc hi]
  split
  case isTrue hm =>
    obtain ⟨-, -, hrep⟩ := s.invariantsHold_iff.1 hi
    obtain ⟨-, hrc1, hrc⟩ := hrep hm
    exact .repBytes (by omega) (by omega) v
  case isFalse => exact .rawBytes (lits := [v]) (by simp)

end

/-- `t` is `s` but for registers that the scan writes: MODE, RC, BUF, BLEN, POS, PHASE and DONE (R34). -/
def ScanRegistersOnly (s t : State) : Prop :=
  t = { s with
    mode := t.mode, rc := t.rc, buf := t.buf, blen := t.blen, pos := t.pos, phase := t.phase, done := t.done }

theorem TransitionNext.raises_or_writes {s t : State} {bs : List Byte} {upd : State → State}
    (h : TransitionNext s t bs upd) (hbs : s.invariantsHold = true → AtMostOnePacket bs)
    (hupd : ∀ u, ScanRegistersOnly u (upd u)) :
    (∃ c, t = s.raise c) ∨ ∃ bs, AtMostOnePacket bs ∧ ScanRegistersOnly (s.emitAll bs) t := by
  rcases h.raises_or with h | ⟨hi, -, rfl⟩
  · exact .inl h
  · exact .inr ⟨bs, hbs hi, hupd _⟩

/-- Every transition raises a fault, or writes at most one packet and registers of the scan (R79 to R84, R87, R88). -/
theorem exec_transition_raises_or_writes {i : Instr} {s t : State} (hi : isTransition i = true)
    (h : exec i s = .next t) :
    (∃ c, t = s.raise c) ∨ ∃ bs, AtMostOnePacket bs ∧ ScanRegistersOnly (s.emitAll bs) t := by
  cases i <;> cases hi
  case scanRawNe => exact (exec_scanRawNe_next h).raises_or_writes (fun _ => .nil) fun _ => rfl
  case scanRawNeFull =>
    exact (exec_scanRawNeFull_next h).raises_or_writes State.atMostOnePacket_bufBytes fun _ => rfl
  case scanRawEq => exact (exec_scanRawEq_next h).raises_or_writes State.atMostOnePacket_bufBytes fun _ => rfl
  case scanRepNe =>
    exact (exec_scanRepNe_next h).raises_or_writes (fun hi => State.atMostOnePacket_repeatControl hi _) fun _ => rfl
  case scanRepEq => exact (exec_scanRepEq_next h).raises_or_writes (fun _ => .nil) fun _ => rfl
  case scanRepEqSat =>
    exact (exec_scanRepEqSat_next h).raises_or_writes (fun _ => .repBytes (by omega) (by omega) _) fun _ => rfl
  case finRaw =>
    exact (exec_finRaw_next h).raises_or_writes (fun hi => State.atMostOnePacket_bufBytes_append hi _) fun _ => rfl
  case finRep =>
    exact (exec_finRep_next h).raises_or_writes (fun hi => State.atMostOnePacket_repeatControl hi _) fun _ => rfl

/-! ### The output -/

theorem State.appended_raise (s : State) (c : FCode) : Appended s (s.raise c) [] :=
  (Appended.refl s).congr rfl rfl rfl rfl rfl rfl

theorem ScanRegistersOnly.appended {s t : State} {bs : List Byte} (h : ScanRegistersOnly (s.emitAll bs) t) :
    Appended s t bs :=
  (s.emitAll_appended bs).congr rfl rfl rfl (by rw [h]) (by rw [h]) (by rw [h])

/-- A transition appends the bytes of at most one packet to the output; one that faults appends nothing (R44). -/
theorem exec_transition_appended {i : Instr} {s t : State} (hi : isTransition i = true) (h : exec i s = .next t) :
    ∃ bs, AtMostOnePacket bs ∧ Appended s t bs := by
  rcases exec_transition_raises_or_writes hi h with ⟨c, rfl⟩ | ⟨bs, hbs, ht⟩
  · exact ⟨[], .nil, s.appended_raise c⟩
  · exact ⟨bs, hbs, ht.appended⟩

/-- So does the CORE's step, which raises INVARIANT or makes a transition (R78). -/
theorem State.coreTurn_appended {s t : State} (h : s.coreTurn = .next t) : ∃ bs, AtMostOnePacket bs ∧ Appended s t bs := by
  rcases State.coreTurn_next h with ⟨-, rfl⟩ | ⟨-, hex⟩
  · exact ⟨[], .nil, s.appended_raise .invariant⟩
  · exact exec_transition_appended s.isTransition_selected hex

end Sys2Proof.Machine
end

section
/-! PROOFS. The memory spaces: who writes IMEM and OMEM, and the host's access to them (R36, R39 to R41, R44, R48, R119). -/

namespace Sys2Proof.Machine

/-! ### OMEM -/

/-- Settles O49: a transition appends to the output, and what it appends lies at OLEN and above. -/
theorem writtenOutputIsNeverRewritten : Obligations.WrittenOutputIsNeverRewritten := by
  intro i s t hi h
  obtain ⟨bs, -, holen, -, hother⟩ := exec_transition_appended hi h
  exact ⟨by omega, fun a ha => hother a (by omega)⟩

/-- Settles O50: the step is the CORE's, and appends at most one packet. The invariant is not needed: the check of R62, which
each transition makes, bounds BLEN and RC. -/
theorem aStepWritesAtMostOnePacket : Obligations.AStepWritesAtMostOnePacket := by
  intro s t _ hscript hcore h
  obtain ⟨bs, hbs, -, hout, -⟩ := State.coreTurn_appended ((State.turn_core hscript hcore).symm.trans h)
  rcases hbs with rfl | ⟨i, hi, rfl⟩
  · exact .inl (by simpa using hout)
  · exact .inr ⟨i, hi, hout⟩

/-! ### IMEM and the parameters -/

/-- IMEM reads as before, and the parameters are the same. -/
def SameInput (s t : State) : Prop := t.cfg = s.cfg ∧ t.imem = s.imem ∧ t.epoch = s.epoch

theorem SameInput.refl (s : State) : SameInput s s := ⟨rfl, rfl, rfl⟩

theorem SameInput.raise (s : State) (c : FCode) : SameInput s (s.raise c) := ⟨rfl, rfl, rfl⟩

theorem SameInput.started (s : State) (n : Nat) : SameInput s (s.started n) := ⟨rfl, rfl, rfl⟩

theorem ReaderOnly.sameInput {s t : State} (h : ReaderOnly s t) : SameInput s t := by
  rw [h]; exact ⟨rfl, rfl, rfl⟩

theorem ScanRegistersOnly.sameInput {s t : State} {bs : List Byte} (h : ScanRegistersOnly (s.emitAll bs) t) :
    SameInput s t := by
  rw [h]; exact ⟨s.emitAll_cfg bs, s.emitAll_imem bs, s.emitAll_epoch bs⟩

theorem exec_transition_sameInput {i : Instr} {s t : State} (hi : isTransition i = true) (h : exec i s = .next t) :
    SameInput s t := by
  rcases exec_transition_raises_or_writes hi h with ⟨c, rfl⟩ | ⟨bs, -, ht⟩
  · exact .raise s c
  · exact ht.sameInput

theorem exec_command_sameInput {i : Instr} {s t : State} (hi : isCommand i = true) (hr : i ≠ .reset)
    (h : exec i s = .next t) : SameInput s t := by
  cases i <;> cases hi
  case nop => cases h; exact .refl s
  case start =>
    rcases execStart_next h with rfl | ⟨c, -, rfl⟩ | ⟨-, rfl⟩
    · exact .refl _
    · exact .raise s c
    · exact .started s _
  case cmdReserved =>
    rcases execCmdReserved_next h with rfl | rfl
    · exact .refl _
    · exact .raise s _
  case reset => exact absurd rfl hr

/-- An instruction is a packet, a transition or a command (R53, R61, R63). -/
theorem instr_families (i : Instr) : isPacket i = true ∨ isTransition i = true ∨ isCommand i = true := by
  cases i <;> simp [isPacket, isTransition, isCommand]

theorem exec_sameInput {i : Instr} {s t : State} (hr : i ≠ .reset) (h : exec i s = .next t) : SameInput s t := by
  rcases instr_families i with hi | hi | hi
  · exact (exec_packet_readerOnly hi h).sameInput
  · exact exec_transition_sameInput hi h
  · exact exec_command_sameInput hi hr h

/-- Settles O48: RESET keeps the parameters, and every other instruction leaves IMEM and the free values' index alone too. -/
theorem noInstructionWritesImem : Obligations.NoInstructionWritesImem := by
  intro i s t h
  by_cases hr : i = .reset
  · subst hr
    cases h
    exact ⟨s.performReset_cfg, fun hne => absurd rfl hne⟩
  · obtain ⟨hcfg, himem, hepoch⟩ := exec_sameInput hr h
    exact ⟨hcfg, fun _ => State.imemByte_congr himem hepoch⟩

/-! ### The host's access -/

theorem State.imemByte_write (s : State) (a : Nat) (b : Byte) (x : Nat) :
    ({ s with imem := s.imem.write a b } : State).imemByte x = if x = a then b else s.imemByte x := by
  simp only [State.imemByte, Memory.read_write]
  split <;> simp

/-- Settles O36: the three cases of the host's write, by PHASE and the address. -/
theorem hostWriteOfImem : Obligations.HostWriteOfImem := by
  intro s a b
  refine ⟨fun hp ha => ⟨{ s with imem := s.imem.write a b }, ?_, rfl, s.imemByte_write a b⟩, fun hp ha => ?_,
    fun hp => ?_⟩
  · simp [State.hostAct, hp, ha]
  · simp [State.hostAct, hp, ha]
  · simp [State.hostAct, hp]

section
variable {s : State}

theorem State.hostAct_readOmem (h : s.coreEnabled = false) (a : Nat) :
    s.hostAct (.readOmem a) =
      if a < s.cfg.pOmemSize then .next (s.receive (s.omemByte a).toNat) else .fault .omemAddress := by
  simp [State.hostAct, State.outputUnsettled, h]

theorem State.hostAct_collect (h : s.coreEnabled = false) :
    s.hostAct .collect = .next { s with reader := { stream := s.output, expanded := [], fault := none } } := by
  simp [State.hostAct, State.outputUnsettled, h]

/-- In a run that has not faulted nothing of the output is handed out (R48; log 7). -/
theorem State.hostAct_output_refused (h : s.coreEnabled = true) (a : Nat) :
    s.hostAct (.readOmem a) = .refused .outputReadInRun ∧ s.hostAct (.readReg .olen) = .refused .outputReadInRun ∧
      s.hostAct .collect = .refused .outputReadInRun := by
  simp [State.hostAct, State.outputUnsettled, h]

end

/-- Settles O37: each read by whether a run is in progress, that of OMEM by the address too. -/
theorem hostReadOfOutput : Obligations.HostReadOfOutput := fun s a =>
  ⟨fun h ha => (State.hostAct_readOmem h a).trans (if_pos ha),
    fun h ha => (State.hostAct_readOmem h a).trans (if_neg (Nat.not_lt.2 ha)),
    fun h => s.hostAct_readReg (r := .olen) fun _ => h,
    State.hostAct_collect,
    fun hp hf => State.hostAct_output_refused (s.coreEnabled_iff.2 ⟨hp, hf⟩) a,
    fun _ => rfl⟩

end Sys2Proof.Machine
end

section
/-! PROOFS. Encoding and decoding (30_encoding.md R54 to R58, R61, R63): the code of an instruction decodes to it, a packet that
decodes has one spelling, and its length follows from its first byte. -/

namespace Sys2Proof.Machine

/-! ### Decode of encode -/

/-- A raw packet ends with its last literal, whatever follows it (R54, R58). -/
theorem decodePacket_rawPacket {n : BitVec 7} {lits : List Byte} (h : lits.length = n.toNat + 1) (rest : List Byte) :
    decodePacket ((0#1 ++ n : BitVec 8) :: (lits ++ rest)) = .ok (.pktRaw n lits, rest) := by
  rw [decodePacket_raw (rawByte_msb n), rawByte_operand, ← h, if_neg (by simp), List.take_left, List.drop_left]

theorem decodePacket_repPacket {m : BitVec 7} (h : m ≠ 0) (v : Byte) (rest : List Byte) :
    decodePacket ((1#1 ++ m : BitVec 8) :: v :: rest) = .ok (.pktRepeat m v, rest) := by
  rw [decodePacket_repeat (repByte_msb m) (repByte_ne m h), repByte_operand]

theorem encode_packet {i : Instr} (hi : isPacket i = true) : encode i = .packet (packetBytes i) := by
  cases i <;> cases hi <;> rfl

/-- Only the packets have operands to constrain, and so a well-formed one is what its bytes decode to (R54, R55, R57). -/
theorem decodePacket_packetBytes {i : Instr} (hi : isPacket i = true) (hw : i.wellFormed = true) (rest : List Byte) :
    decodePacket (packetBytes i ++ rest) = .ok (i, rest) := by
  cases i <;> cases hi
  case pktRaw n lits => exact decodePacket_rawPacket (by simpa [Instr.wellFormed] using hw) rest
  case pktRepeat m v => exact decodePacket_repPacket (by simpa [Instr.wellFormed] using hw) v rest
  case pktReserved => exact decodePacket_reserved rest

theorem encode_transition {i : Instr} (hi : isTransition i = true) :
    ∃ sel, encode i = .selector sel ∧ decodeSelector sel = i := by
  cases i <;> cases hi <;> exact ⟨_, rfl, rfl⟩

theorem encode_command {i : Instr} (hi : isCommand i = true) :
    ∃ cmd, encode i = .command cmd ∧ decodeCommand cmd = i := by
  cases i <;> cases hi <;> exact ⟨_, rfl, rfl⟩

/-- Settles O3, by the three families: a packet's bytes, a row's selector, a command word. -/
theorem decodeOfEncodeIsTheInstruction : Obligations.DecodeOfEncodeIsTheInstruction := by
  intro i rest hw
  rcases instr_families i with hi | hi | hi
  · rw [encode_packet hi]
    exact decodePacket_packetBytes hi hw rest
  · obtain ⟨sel, he, hd⟩ := encode_transition hi
    rw [he, ← hd]
    rfl
  · obtain ⟨cmd, he, hd⟩ := encode_command hi
    rw [he, ← hd]
    rfl

/-! ### Encode of decode -/

/-- What decodes is spelt from its operands, which are well formed (R54, R55, R57). -/
theorem wellFormed_and_eq_of_decodePacket {bytes rest : List Byte} {i : Instr} (h : decodePacket bytes = .ok (i, rest)) :
    i.wellFormed = true ∧ bytes = packetBytes i ++ rest := by
  cases bytes with
  | nil => cases h
  | cons c bytes =>
    rcases controlByte_cases c with hc | rfl | ⟨hc, hc'⟩
    · rw [decodePacket_raw hc] at h
      split at h <;> cases h
      rename_i hlen
      have hlits : (bytes.take ((c.extractLsb' 0 7).toNat + 1)).length = (c.extractLsb' 0 7).toNat + 1 :=
        List.length_take_of_le (Nat.le_of_not_lt hlen)
      exact ⟨beq_iff_eq.2 hlits, by simp [packetBytes, encode, rawByte_of_msb c hc]⟩
    · rw [decodePacket_reserved] at h
      cases h
      exact ⟨rfl, rfl⟩
    · cases bytes with
      | nil => rw [decodePacket_repeat_short hc hc'] at h; cases h
      | cons v bytes =>
        rw [decodePacket_repeat hc hc'] at h
        cases h
        exact ⟨by simpa [Instr.wellFormed] using repByte_operand_ne c hc hc',
          by simp [packetBytes, encode, repByte_of_msb c hc]⟩

/-- Settles O4: only packets are read from a stream, each with its one spelling. -/
theorem encodeOfDecodedPacketIsItsBytes : Obligations.EncodeOfDecodedPacketIsItsBytes := by
  intro bytes rest i h
  obtain ⟨hw, hb⟩ := wellFormed_and_eq_of_decodePacket h
  exact ⟨hw, isPacket_of_decodePacket h, hb⟩

/-! ### The length of a packet -/

theorem packetLength_raw {c : Byte} (hc : c.msb = false) : packetLength c = some (c.toNat + 2) := by
  simp [packetLength, hc, rawByte_toNat c hc]

theorem packetLength_reserved : packetLength 0x80#8 = none := rfl

theorem packetLength_repeat {c : Byte} (hc : c.msb = true) (hc' : c ≠ 0x80#8) : packetLength c = some 2 := by
  simp [packetLength, hc, hc']

/-- A stream shorter than its first packet is rejected, and a longer one loses exactly that packet (R58). -/
theorem decodePacket_of_packetLength {c : Byte} {n : Nat} (h : packetLength c = some n) (rest : List Byte) :
    (rest.length + 1 < n → decodePacket (c :: rest) = .error .truncated) ∧
      (n ≤ rest.length + 1 → ∃ i, decodePacket (c :: rest) = .ok (i, (c :: rest).drop n)) := by
  rcases controlByte_cases c with hc | rfl | ⟨hc, hc'⟩
  · rw [packetLength_raw hc] at h
    cases h
    rw [decodePacket_raw hc, rawByte_toNat c hc]
    exact ⟨fun hlt => if_pos (by omega), fun hle => ⟨_, if_neg (by omega)⟩⟩
  · rw [packetLength_reserved] at h
    cases h
  · rw [packetLength_repeat hc hc'] at h
    cases h
    cases rest with
    | nil => exact ⟨fun _ => decodePacket_repeat_short hc hc', fun hle => by simp at hle⟩
    | cons v rest => exact ⟨fun hlt => by simp at hlt, fun _ => ⟨_, decodePacket_repeat hc hc' v rest⟩⟩

/-- Settles O5: bit 7 is the control byte's top bit, and a raw one is its own operand. -/
theorem packetLengthFromFirstByte : Obligations.PacketLengthFromFirstByte := by
  refine ⟨fun c => ?_, fun c rest n h => decodePacket_of_packetLength h rest⟩
  rw [← show c.msb = c.getLsbD 7 from BitVec.msb_eq_getLsbD_last c]
  rcases controlByte_cases c with hc | rfl | ⟨hc, hc'⟩
  · rw [packetLength_raw hc, if_pos hc]
  · rfl
  · rw [packetLength_repeat hc hc', if_neg (by simp [hc]), if_neg hc']

/-! ### The tables -/

/-- Settles O1: the packets by the clause of their form, the selectors and commands by the tables. -/
theorem specWordsDecode : Obligations.SpecWordsDecode :=
  ⟨decodePacket_rawPacket (n := 2#7) (lits := [1#8, 2#8, 3#8]) rfl [], decodePacket_repPacket (m := 0x7D#7) (by decide) _ [],
    decodePacket_reserved _, rfl, rfl, rfl, rfl⟩

/-- Settles O2, one selector value at a time. -/
theorem selectorTableIsTotalAndDisjoint : Obligations.SelectorTableIsTotalAndDisjoint := by
  unfold Obligations.SelectorTableIsTotalAndDisjoint
  decide

/-! ### The reserved control byte -/

/-- Settles O8: Expand's fault is new, or it stands already (R71). -/
theorem reservedControlFaultsExpandOnly : Obligations.ReservedControlFaultsExpandOnly := by
  intro s
  refine ⟨s.expandRaise .reservedControl, rfl, s.expandRaise_eq _, ?_⟩
  cases hf : s.reader.fault with
  | none => rw [State.expandRaise_of_none hf]; simp [Reader.result]
  | some f => rw [State.expandRaise_of_some hf]; simp [Reader.result, hf]

end Sys2Proof.Machine
end

section
/-! PROOFS. What the next step runs (30_encoding.md R60 to R63, R67): the check before the selector, a host's wait and its other
moves, and a table word placed. -/

namespace Sys2Proof.Machine

/-! ### The check before the selector -/

/-- A state that fails one of the tests of R62 does not pass the check. -/
theorem State.invariantsHold_eq_false {s : State}
    (h : ¬ (s.pos < s.chunkLen ∧
      ((s.mode = .raw ∧ s.rc = 0#8 ∧ s.blen.toNat ≤ 127 ∧ s.blen.toNat ≤ s.pos) ∨
        (s.mode = .rep ∧ s.blen = 0#8 ∧ 1 ≤ s.rc.toNat ∧ s.rc.toNat ≤ 127)))) :
    s.invariantsHold = false := by
  by_contra hi
  obtain ⟨hpos, hraw, hrep⟩ := s.invariantsHold_iff.1 (by simpa using hi)
  cases hm : s.mode with
  | raw => exact h ⟨hpos, .inl ⟨hm, hraw hm⟩⟩
  | rep => exact h ⟨hpos, .inr ⟨hm, hrep hm⟩⟩

theorem State.coreTurn_invariant {s : State} (h : s.invariantsHold = false) :
    s.coreTurn = .next (s.raise .invariant) := by
  simp [State.coreTurn, h]

/-- The host waits exactly at a WAIT that neither DONE nor FAULT has ended (R67). -/
theorem State.waiting_iff (s : State) (act : HostAct) :
    s.waiting act = true ↔ act = .wait ∧ s.done = false ∧ s.fault = false := by
  simp [State.waiting, and_assoc]

/-- At a due WAIT the CORE takes its step (R67, R121; log 4). -/
theorem State.turn_waiting {s : State} {m : HostMove} {rest : List HostMove} (hs : s.script = m :: rest)
    (hw : s.waiting m.act = true) (hm : m.after = 0) (he : s.coreEnabled = true) : s.turn = s.coreTurn := by
  simp [State.turn, hs, hw, hm, he]

/-- Settles O20: the CORE raises INVARIANT before it forms a selector, and its step is the machine's with nothing pending and
at a due WAIT. -/
theorem brokenInvariantFaultsBeforeDecoding : Obligations.BrokenInvariantFaultsBeforeDecoding := by
  refine ⟨fun s hs hp => hs.invariantsHold hp, fun s hp hf hbroken => ?_⟩
  have he : s.coreEnabled = true := s.coreEnabled_iff.2 ⟨hp, hf⟩
  exact ⟨State.coreTurn_invariant (State.invariantsHold_eq_false hbroken), fun hs => State.turn_core hs he,
    fun m rest hs hact hm hd => State.turn_waiting hs ((s.waiting_iff _).2 ⟨hact, hd, hf⟩) hm he⟩

/-! ### A wait -/

/-- The CORE does not touch the host's script (R122). -/
theorem State.coreTurn_script {s t : State} (h : s.coreTurn = .next t) : t.script = s.script := by
  rcases State.coreTurn_next h with ⟨-, rfl⟩ | ⟨-, hex⟩
  · rfl
  · rcases exec_transition_raises_or_writes s.isTransition_selected hex with ⟨c, rfl⟩ | ⟨bs, -, ht⟩
    · rfl
    · rw [ht]; exact s.emitAll_script bs

/-- While it waits, the host's WAIT stays next: at most its delay is counted down (R67, R119). -/
theorem step_waiting_script {s t : State} {m : HostMove} {rest : List HostMove} (hs : s.script = m :: rest)
    (hw : s.waiting m.act = true) (h : step s = .next t) : ∃ m', t.script = m' :: rest ∧ m'.act = m.act := by
  change s.turn = .next t at h
  rcases s.turn_cases with ⟨hnil, -⟩ | ⟨hnil, -⟩ | ⟨hnil, -⟩ | ⟨m', rest', hs', -, -, e⟩ | ⟨-, -, -, -, -, e⟩ |
    ⟨-, -, -, -, -, e⟩ | ⟨m', rest', hs', hw', -⟩
  · cases hs.symm.trans hnil
  · cases hs.symm.trans hnil
  · cases hs.symm.trans hnil
  · cases hs.symm.trans hs'
    exact ⟨_, State.coreTurn_script (e.symm.trans h), rfl⟩
  · exact ⟨m, (State.coreTurn_script (e.symm.trans h)).trans hs, rfl⟩
  · cases e.symm.trans h
    exact ⟨m, hs, rfl⟩
  · cases hs.symm.trans hs'
    rw [hw] at hw'
    cases hw'

/-- Settles O38: a wait not ended stays next, and one that DONE or FAULT has ended is a read of STATUS. -/
theorem onlyDoneOrFaultEndsAWait : Obligations.OnlyDoneOrFaultEndsAWait := by
  intro s t m rest hs hact
  refine ⟨fun hd hf h => ?_, fun hend he => ?_⟩
  · obtain ⟨m', hs', hact'⟩ := step_waiting_script hs ((s.waiting_iff _).2 ⟨hact, hd, hf⟩) h
    exact ⟨m', hs', hact'.trans hact⟩
  · have hw : s.waiting m.act = false := by
      rcases hend with hd | hf <;> simp [State.waiting, *]
    calc step s = State.hostAct { s with script := rest } m.act := State.turn_hostAct hs hw (by simp [he])
      _ = .next { s with script := rest, received := s.status.toNat :: s.received } := by rw [hact]; rfl

/-! ### The host's other moves -/

/-- A due move but a WAIT is made (R121). -/
theorem step_hostAct {s : State} {m : HostMove} {rest : List HostMove} (hs : s.script = m :: rest)
    (ha : s.coreEnabled = true → m.after = 0) (hact : m.act ≠ .wait) :
    step s = State.hostAct { s with script := rest } m.act :=
  State.turn_hostAct hs (by simp [State.waiting, hact]) ha

theorem ofNat_two_eq_of_mod_four {cmd : BitVec 2} {v : Nat} (h : cmd.toNat = v % 4) : BitVec.ofNat 2 v = cmd :=
  BitVec.eq_of_toNat_eq (by simp [h])

/-- Settles O40: a write of CTRL is such a move, and only the low two bits of the value count. -/
theorem stepRunsTheWrittenCommand : Obligations.StepRunsTheWrittenCommand := by
  intro s m rest hs ha
  refine ⟨fun v cmd hact hcmd => ?_, step_hostAct hs ha⟩
  calc step s = State.hostAct { s with script := rest } m.act := step_hostAct hs ha (by simp [hact])
    _ = exec (decodeCommand (BitVec.ofNat 2 v)) { s with script := rest } := by rw [hact]; rfl
    _ = exec (decodeCommand cmd) { s with script := rest } := by rw [ofNat_two_eq_of_mod_four hcmd]

/-! ### A table word placed -/

/-- A placed command is written next, to CTRL (R63). -/
theorem step_stageCommand (s : State) (cmd : BitVec 2) : step (s.stageCommand cmd) = exec (decodeCommand cmd) s := by
  rw [step_hostAct (s := s.stageCommand cmd) rfl (fun _ => rfl) (by simp)]
  change exec (decodeCommand (BitVec.ofNat 2 cmd.toNat)) s = _
  rw [BitVec.ofNat_toNat, BitVec.setWidth_eq]

/-- A placed packet is read next (R71). -/
theorem step_stagePacket (s : State) {bytes rest : List Byte} {i : Instr} (h : decodePacket bytes = .ok (i, rest)) :
    step (s.stagePacket bytes) = exec i { s with reader := { s.reader with stream := rest, fault := none } } := by
  rw [step_hostAct (s := s.stagePacket bytes) rfl (fun _ => rfl) (by simp)]
  simp [State.hostAct, State.nextPacket, State.stagePacket, h]

section
variable (s : State) (mode : Mode) (fin eq sat : Bool)

/-- The placed chunk ends at the cursor or one byte after it. -/
theorem State.stageCore_fin : (s.stageCore mode fin eq sat).fin = fin := by
  cases fin <;> rfl

theorem State.stageCore_sat : (s.stageCore mode fin eq sat).sat = sat := by
  cases mode <;> cases sat <;> rfl

/-- The byte under the placed cursor equals the next one exactly where EQ is asked for. -/
theorem State.stageCore_imemByte_eq_iff :
    (s.stageCore mode fin eq sat).imemByte (s.stageCore mode fin eq sat).pos =
        (s.stageCore mode fin eq sat).imemByte ((s.stageCore mode fin eq sat).pos + 1) ↔ eq = true := by
  cases eq <;> simp [State.stageCore, State.imemByte, Memory.read_write]

/-- A placed CORE has a step that passes the check of R62. -/
theorem State.stageCore_coreReady : (s.stageCore mode fin eq sat).coreReady := by
  refine ⟨rfl, rfl, ?_, ?_⟩
  · cases mode <;> cases fin <;> cases sat <;> rfl
  · cases fin <;> simp [State.stageCore]

/-- It selects what the four bits do (R60, R61). -/
theorem State.stageCore_selected :
    (s.stageCore mode fin eq sat).selected =
      decodeSelector (BitVec.ofBool fin ++ BitVec.ofBool mode.bit ++ BitVec.ofBool eq ++ BitVec.ofBool sat) := by
  have hmode : (s.stageCore mode fin eq sat).mode = mode := rfl
  simp only [decodeSelector_bits, State.selected, s.stageCore_fin, s.stageCore_sat, s.stageCore_imemByte_eq_iff, hmode]

end

/-- A selector is its four bits, FIN first (R60). -/
theorem selector_eq_bits (sel : BitVec 4) :
    BitVec.ofBool (sel.getLsbD 3) ++ BitVec.ofBool (sel.getLsbD 2) ++ BitVec.ofBool (sel.getLsbD 1) ++
      BitVec.ofBool (sel.getLsbD 0) = sel := by
  revert sel; decide

theorem State.stage_selector_ready (s : State) (sel : BitVec 4) : (s.stage (.selector sel)).coreReady :=
  s.stageCore_coreReady _ _ _ _

/-- A placed selector's row is what the CORE runs next (R60, R61). -/
theorem step_stage_selector (s : State) (sel : BitVec 4) :
    step (s.stage (.selector sel)) = exec (decodeSelector sel) (s.stage (.selector sel)) := by
  have hbit : (if sel.getLsbD 2 then Mode.rep else Mode.raw).bit = sel.getLsbD 2 := by cases sel.getLsbD 2 <;> rfl
  have hsel : (s.stage (.selector sel)).selected = decodeSelector sel := by
    rw [State.stage, State.stageCore_selected, hbit, selector_eq_bits]
  obtain ⟨hp, hf, hi, hl⟩ := s.stage_selector_ready sel
  calc step (s.stage (.selector sel)) = (s.stage (.selector sel)).coreTurn :=
      State.turn_core rfl ((State.coreEnabled_iff _).2 ⟨hp, hf⟩)
    _ = exec (decodeSelector sel) (s.stage (.selector sel)) := by rw [State.coreTurn_eq hi hl, hsel]

/-! The three families exclude each other. -/

theorem isTransition_decodeSelector (sel : BitVec 4) : isTransition (decodeSelector sel) = true := by
  revert sel; decide

theorem isCommand_decodeCommand (cmd : BitVec 2) : isCommand (decodeCommand cmd) = true := by
  revert cmd; decide

theorem isTransition_only {i : Instr} (h : isTransition i = true) : isCommand i = false ∧ isPacket i = false := by
  cases i <;> cases h <;> exact ⟨rfl, rfl⟩

theorem isCommand_only {i : Instr} (h : isCommand i = true) : isTransition i = false ∧ isPacket i = false := by
  cases i <;> cases h <;> exact ⟨rfl, rfl⟩

theorem isPacket_only {i : Instr} (h : isPacket i = true) : isTransition i = false ∧ isCommand i = false := by
  cases i <;> cases h <;> exact ⟨rfl, rfl⟩

/-- What a code decodes to is run by the next step of the state with that code placed, whatever table word it comes from. -/
theorem step_stage (s : State) {code : Code} {i : Instr} {rest : List Byte} (h : decode code = .ok (i, rest)) :
    ∃ u, step (s.stage code) = exec i u ∧ (isTransition i = true → u = s.stage code ∧ u.coreReady) ∧
      (isCommand i = true → u = s) ∧ (isPacket i = true → u.reader.fault = none ∧ u.script = s.script) := by
  cases code with
  | packet bytes =>
    obtain ⟨ht, hc⟩ := isPacket_only (isPacket_of_decodePacket h)
    exact ⟨_, step_stagePacket s h, by simp [ht], by simp [hc], fun _ => ⟨rfl, rfl⟩⟩
  | selector sel =>
    cases h
    obtain ⟨hc, hp⟩ := isTransition_only (isTransition_decodeSelector sel)
    exact ⟨_, step_stage_selector s sel, fun _ => ⟨rfl, s.stage_selector_ready sel⟩, by simp [hc], by simp [hp]⟩
  | command cmd =>
    cases h
    obtain ⟨ht, hp⟩ := isCommand_only (isCommand_decodeCommand cmd)
    exact ⟨s, step_stageCommand s cmd, by simp [ht], fun _ => rfl, by simp [hp]⟩

/-- Settles O43: a table word is read as a code, and the code is placed. -/
theorem placedTableWordIsRunNext : Obligations.PlacedTableWordIsRunNext := by
  intro s nbits w i h
  unfold decodeTableWord at h
  split at h <;> cases h
  exact step_stage s ‹_›

end Sys2Proof.Machine
end

section
/-! PROOFS. The meaning of packets (40_packets.md R69 to R71): Expand clause by clause, and the reader that computes it
packet by packet. -/

namespace Sys2Proof.Machine

/-! ### Expand, clause by clause -/

/-- A raw packet's own bytes mean its literals, in front of whatever follows (R69, R71). -/
theorem expand_rawPacket {n : BitVec 7} {lits : List Byte} (h : lits.length = n.toNat + 1) (rest : List Byte) :
    expand ((0#1 ++ n : BitVec 8) :: (lits ++ rest)) = (expand rest).map (lits ++ ·) := by
  rw [expand_raw (rawByte_msb n), rawByte_operand, ← h, if_neg (by simp), List.take_left, List.drop_left]

theorem expand_rawPacket_short {n : BitVec 7} {rest : List Byte} (h : rest.length < n.toNat + 1) :
    expand ((0#1 ++ n : BitVec 8) :: rest) = .error .truncated := by
  rw [expand_raw (rawByte_msb n), rawByte_operand, if_pos h]

/-- A repeat packet's own bytes mean its copies, in front of whatever follows (R70, R71). -/
theorem expand_repPacket {m : BitVec 7} (h : m ≠ 0) (v : Byte) (rest : List Byte) :
    expand ((1#1 ++ m : BitVec 8) :: v :: rest) = (expand rest).map (List.replicate (repeatCount m) v ++ ·) :=
  expand_repeat (repByte_msb m) (repByte_ne m h)

/-- Settles O9: the raw clause by its packet's bytes, the others by the control byte. -/
theorem expandClauses : Obligations.ExpandClauses := by
  refine ⟨expand_nil, fun n rest h => expand_rawPacket_short h, fun n rest h => ?_, expand_reserved, fun c h => ?_,
    fun c v rest h => ?_⟩
  · rw [← expand_rawPacket (List.length_take_of_le h), List.take_append_drop]
  · obtain ⟨hc, hc'⟩ := msb_of_gt c h
    exact expand_repeat_short hc hc'
  · obtain ⟨hc, hc'⟩ := msb_of_gt c h
    exact expand_repeat hc hc'

/-! ### A packet's meaning for the reader -/

/-- Settles O6: the reader takes the literals, unless Expand has faulted. -/
theorem pktRawMeansItsLiterals : Obligations.PktRawMeansItsLiterals := by
  intro n lits s
  refine ⟨s.accept lits, rfl, s.accept_eq lits, ?_⟩
  cases hf : s.reader.fault with
  | none => rw [State.accept_of_none hf]; simp [hf]
  | some f => rw [State.accept_of_some hf]; simp [hf]

/-- The count of a repeat packet as R70 has it, by its control byte `128 + m`. -/
theorem repeatCount_eq (m : BitVec 7) : repeatCount m = 257 - (128 + m.toNat) := by
  rw [repeatCount, repByte_toNat_append]

/-- Settles O7: the reader takes the copies, unless Expand has faulted. -/
theorem pktRepeatMeansItsCopies : Obligations.PktRepeatMeansItsCopies := by
  intro m v s
  refine ⟨s.accept (List.replicate (repeatCount m) v), rfl, s.accept_eq _, ?_⟩
  cases hf : s.reader.fault with
  | none => rw [State.accept_of_none hf]; simp [hf, repeatCount_eq]
  | some f => rw [State.accept_of_some hf]; simp [hf]

/-! ### The reader's move -/

section
variable {s : State}

theorem State.hostAct_readPacket_ok {i : Instr} {rest : List Byte} (hf : s.reader.fault = none)
    (hd : decodePacket s.reader.stream = .ok (i, rest)) :
    s.hostAct .readPacket = exec i { s with reader := { s.reader with stream := rest } } := by
  simp [State.hostAct, State.nextPacket, hf, hd]

theorem State.hostAct_readPacket_truncated (hf : s.reader.fault = none)
    (hd : decodePacket s.reader.stream = .error .truncated) :
    s.hostAct .readPacket = .next { s with reader := { s.reader with fault := some .truncated } } := by
  simp [State.hostAct, State.nextPacket, hf, hd, State.expandRaise_of_none hf]

/-- At its end, or after its fault, the reader stays where it is. -/
theorem State.hostAct_readPacket_ended (h : s.reader.fault = none → s.reader.stream = []) :
    s.hostAct .readPacket = .next s := by
  cases hf : s.reader.fault with
  | none => simp [State.hostAct, State.nextPacket, hf, h hf, decodePacket]
  | some f => simp [State.hostAct, State.nextPacket, hf]

end

/-- Settles O41: a reading move is no WAIT, so it is made when it is due. -/
theorem stepRunsTheNextPacket : Obligations.StepRunsTheNextPacket := by
  intro s m rest i bytes hs hact ha hf hd
  calc step s = State.hostAct { s with script := rest } m.act := step_hostAct hs ha (by simp [hact])
    _ = exec i { s with script := rest, reader := { s.reader with stream := bytes } } := by
      rw [hact]; exact State.hostAct_readPacket_ok hf hd

/-! ### The reader computes Expand -/

/-- What the reader arrives at when it reads its stream to the end (R71). -/
def Reader.outcome (r : Reader) : Except ExpandFault (List Byte) :=
  match r.fault with
  | some f => .error f
  | none => (expand r.stream).map (r.expanded ++ ·)

theorem Reader.outcome_of_none {r : Reader} (h : r.fault = none) :
    r.outcome = (expand r.stream).map (r.expanded ++ ·) := by
  simp [Reader.outcome, h]

theorem Reader.outcome_of_some {r : Reader} {f : ExpandFault} (h : r.fault = some f) : r.outcome = .error f := by
  simp [Reader.outcome, h]

/-- A reader that faulted or is at the end of its stream has arrived. -/
theorem Reader.result_of_ended {r : Reader} (h : r.fault = none → r.stream = []) : r.result = r.outcome := by
  cases hf : r.fault with
  | none => simp [Reader.result, Reader.outcome, hf, h hf, expand_nil, Except.map]
  | some f => simp [Reader.result, Reader.outcome, hf]

/-- Where no packet can be read, there is no byte left, or Expand raises TRUNCATED (R58, R71). -/
theorem expand_of_decodePacket_error {bytes : List Byte} {r : Reject} (h : decodePacket bytes = .error r) :
    (r = .emptyStream ∧ bytes = []) ∨ (r = .truncated ∧ expand bytes = .error .truncated) := by
  cases bytes with
  | nil => cases h; exact .inl ⟨rfl, rfl⟩
  | cons c rest =>
    right
    rcases controlByte_cases c with hc | rfl | ⟨hc, hc'⟩
    · rw [decodePacket_raw hc] at h
      split at h <;> cases h
      exact ⟨rfl, (expand_raw hc).trans (if_pos ‹_›)⟩
    · rw [decodePacket_reserved] at h; cases h
    · cases rest with
      | nil =>
        rw [decodePacket_repeat_short hc hc'] at h
        cases h
        exact ⟨rfl, expand_repeat_short hc hc'⟩
      | cons v rest => rw [decodePacket_repeat hc hc'] at h; cases h

/-- `t` is `s` with a packet taken off the reader's stream, up to `rest`, and run: the outcome is that of `s`. -/
structure ReadOn (s t : State) (rest : List Byte) : Prop where
  script : t.script = s.script
  outcome : t.reader.outcome = s.reader.outcome
  stream : t.reader.stream = rest

/-- Literals or copies are appended now, or by Expand of the whole stream (R69 to R71). -/
theorem Reader.outcome_taken {r : Reader} {w rest : List Byte} (hf : r.fault = none)
    (h : expand r.stream = (expand rest).map (w ++ ·)) :
    Reader.outcome { r with stream := rest, expanded := r.expanded ++ w } = r.outcome := by
  simp only [Reader.outcome, hf, h]
  cases expand rest <;> simp [Except.map]

theorem ReadOn.accept {s : State} {w rest : List Byte} (hf : s.reader.fault = none)
    (h : expand s.reader.stream = (expand rest).map (w ++ ·)) :
    ReadOn s (State.accept { s with reader := { s.reader with stream := rest } } w) rest := by
  rw [State.accept_of_none (s := { s with reader := { s.reader with stream := rest } }) hf]
  exact ⟨rfl, Reader.outcome_taken hf h, rfl⟩

/-- The reserved control byte is met now, or by Expand of the whole stream (R57, R71). -/
theorem ReadOn.reserved {s : State} {rest : List Byte} (hf : s.reader.fault = none)
    (h : s.reader.stream = 0x80#8 :: rest) :
    ReadOn s (State.expandRaise { s with reader := { s.reader with stream := rest } } .reservedControl) rest := by
  rw [State.expandRaise_of_none (s := { s with reader := { s.reader with stream := rest } }) hf]
  refine ⟨rfl, (Reader.outcome_of_some rfl).trans ?_, rfl⟩
  rw [Reader.outcome_of_none hf, h, expand_reserved]
  rfl

/-- Every packet that is read takes the reader on (R69 to R71). -/
theorem exec_packet_readOn {s : State} {i : Instr} {rest : List Byte} (hf : s.reader.fault = none)
    (hd : decodePacket s.reader.stream = .ok (i, rest)) :
    ∃ t, exec i { s with reader := { s.reader with stream := rest } } = .next t ∧ ReadOn s t rest := by
  obtain ⟨hw, hb⟩ := wellFormed_and_eq_of_decodePacket hd
  have hi := isPacket_of_decodePacket hd
  cases i <;> cases hi
  case pktRaw n lits =>
    exact ⟨_, rfl, .accept hf (hb ▸ expand_rawPacket (by simpa [Instr.wellFormed] using hw) rest)⟩
  case pktRepeat m v =>
    exact ⟨_, rfl, .accept hf (hb ▸ expand_repPacket (by simpa [Instr.wellFormed] using hw) v rest)⟩
  case pktReserved => exact ⟨_, rfl, .reserved hf hb⟩

theorem packetBytes_ne_nil {i : Instr} (h : isPacket i = true) : packetBytes i ≠ [] := by
  cases i <;> cases h <;> simp [packetBytes, encode]

/-- A reading move leaves the outcome as it is, and takes a byte or more off a stream that is still read. -/
theorem State.hostAct_readPacket_outcome {s : State} {n : Nat}
    (hn : s.reader.fault = none → s.reader.stream.length ≤ n + 1) :
    ∃ t, s.hostAct .readPacket = .next t ∧ t.script = s.script ∧ t.reader.outcome = s.reader.outcome ∧
      (t.reader.fault = none → t.reader.stream.length ≤ n) := by
  cases hf : s.reader.fault with
  | some f => exact ⟨s, State.hostAct_readPacket_ended (by simp [hf]), rfl, rfl, by simp [hf]⟩
  | none =>
    cases hd : decodePacket s.reader.stream with
    | error r =>
      rcases expand_of_decodePacket_error hd with ⟨rfl, hnil⟩ | ⟨rfl, hexp⟩
      · exact ⟨s, State.hostAct_readPacket_ended fun _ => hnil, rfl, rfl, by simp [hnil]⟩
      · refine ⟨_, State.hostAct_readPacket_truncated hf hd, rfl, ?_, by simp⟩
        rw [Reader.outcome_of_none hf, hexp]
        rfl
    | ok p =>
      obtain ⟨i, rest⟩ := p
      obtain ⟨t, hex, hread⟩ := exec_packet_readOn hf hd
      refine ⟨t, (State.hostAct_readPacket_ok hf hd).trans hex, hread.script, hread.outcome, fun _ => ?_⟩
      have hlen := congrArg List.length (wellFormed_and_eq_of_decodePacket hd).2
      have hpos := List.length_pos_iff.2 (packetBytes_ne_nil (isPacket_of_decodePacket hd))
      rw [List.length_append] at hlen
      have := hn hf
      rw [hread.stream]
      omega

/-- As many reading moves as there are bytes left bring the reader to its outcome. -/
theorem run_reads_outcome {n : Nat} {s : State} (hs : s.script = List.replicate n { after := 0, act := .readPacket })
    (hn : s.reader.fault = none → s.reader.stream.length ≤ n) :
    ∃ t : State, core.run n s = .next t ∧ t.reader.result = s.reader.outcome := by
  induction n generalizing s with
  | zero => exact ⟨s, rfl, Reader.result_of_ended fun hf => List.eq_nil_of_length_eq_zero (Nat.le_zero.1 (hn hf))⟩
  | succ n ih =>
    have hstep := step_hostAct (hs.trans List.replicate_succ) (fun _ => rfl) (by simp)
    obtain ⟨u, hu, hscript, hout, hlen⟩ := State.hostAct_readPacket_outcome
      (s := { s with script := List.replicate n { after := 0, act := .readPacket } }) hn
    obtain ⟨t, hrun, ht⟩ := ih hscript hlen
    exact ⟨t, (core_run_succ (hstep.trans hu) n).trans hrun, ht.trans hout⟩

/-- Settles O10: at the start, the reader's outcome is Expand of all its bytes. -/
theorem readerComputesExpand : Obligations.ReaderComputesExpand := by
  intro s bytes
  obtain ⟨t, hrun, ht⟩ := run_reads_outcome (n := bytes.length)
    (s := { s with
      reader := { stream := bytes, expanded := [], fault := none }
      script := List.replicate bytes.length { after := 0, act := .readPacket } }) rfl fun _ => Nat.le_refl _
  refine ⟨t, hrun, ht.trans ?_⟩
  rw [Reader.outcome_of_none rfl]
  cases expand bytes <;> rfl

end Sys2Proof.Machine
end

section
/-! PROOFS. The end of a run (R72): only the CORE's finalize transition sets DONE within a run, and the output then means the
chunk. -/

namespace Sys2Proof.Machine

/-- No command completes a run in progress (R101, R109). -/
theorem exec_command_done_of_run {s t : State} (hp : s.phase = .run) (hd : s.done = false) (cmd : BitVec 2)
    (h : exec (decodeCommand cmd) s = .next t) : t.done = false := by
  unfold decodeCommand at h
  split at h
  · cases h; exact hd
  · change execStart s = .next t at h
    unfold execStart at h
    rw [if_pos hp] at h
    split at h <;> cases h <;> exact hd
  · rcases execCmdReserved_next h with rfl | rfl <;> exact hd
  · cases h; rfl

/-- Nor does any other move of the host (R119). -/
theorem hostAct_done_of_run {s t : State} (hp : s.phase = .run) (hd : s.done = false) {act : HostAct}
    (h : s.hostAct act = .next t) : t.done = false := by
  cases act with
  | writeImem a b => simp [State.hostAct, hp] at h
  | writeReg r v =>
    cases r with
    | ctrl => exact exec_command_done_of_run hp hd _ h
    | len => cases h; exact hd
    | status => cases h; exact hd
    | olen => cases h; exact hd
  | readReg r =>
    simp only [State.hostAct] at h
    split at h <;> cases h
    exact hd
  | readOmem a =>
    simp only [State.hostAct] at h
    split at h
    · cases h
    · split at h <;> cases h
      exact hd
  | wait => cases h; exact hd
  | powerOn => cases h; rfl
  | collect =>
    simp only [State.hostAct] at h
    split at h <;> cases h
    exact hd
  | feed bytes => cases h; exact hd
  | readPacket => rw [hostAct_readPacket_readerOnly h]; exact hd

/-- The CORE's step that sets DONE is a finalize transition (R87, R88). -/
theorem State.Inv.finishes_of_done {s t : State} (hs : s.Inv) (hp : s.phase = .run) (h : s.coreTurn = .next t)
    (hd : t.done = true) : ∃ bs, Finishes s t bs := by
  have hnot := hs.done_eq hp
  rcases hs.coreTurn_outcome hp h with ⟨rfl, -⟩ | ⟨bs, hadv⟩ | hfin
  · rw [State.raise_done, hnot] at hd; cases hd
  · rw [hadv.done, hnot] at hd; cases hd
  · exact hfin

/-- A step of a run after which DONE = 1 is that step of the CORE, whatever the host still has pending. -/
theorem State.Inv.step_finishes_of_done {s t : State} (hs : s.Inv) (hp : s.phase = .run) (h : Machine.step s = .next t)
    (hd : t.done = true) : ∃ script bs, s.fault = false ∧ Finishes { s with script := script } t bs := by
  have hnot := hs.done_eq hp
  have core : ∀ script, s.coreEnabled = true → State.coreTurn { s with script := script } = .next t →
      ∃ script bs, s.fault = false ∧ Finishes { s with script := script } t bs := fun script he hc => by
    obtain ⟨bs, hfin⟩ := (hs.withScript script).finishes_of_done hp hc hd
    exact ⟨script, bs, (s.coreEnabled_iff.1 he).2, hfin⟩
  change s.turn = .next t at h
  rcases s.turn_cases with ⟨-, he, e⟩ | ⟨-, -, -, e⟩ | ⟨-, -, -, e⟩ | ⟨m, rest, -, he, -, e⟩ | ⟨-, -, -, -, he, e⟩ |
    ⟨-, -, -, -, -, e⟩ | ⟨m, rest, -, -, -, e⟩ <;> rw [e] at h
  · exact core s.script he h
  · cases h
  · cases h; rw [hnot] at hd; cases hd
  · exact core _ he h
  · exact core s.script he h
  · cases h; rw [hnot] at hd; cases hd
  · rw [hostAct_done_of_run (s := { s with script := rest }) hp hnot h] at hd; cases hd

/-- What was written before, and then the last packet, means the chunk (R30, R72). -/
theorem Finishes.means {s t : State} {bs : List Byte} (h : Finishes s t bs) (hs : s.runInv) :
    Means t.output (t.input t.chunkLen) := by
  obtain ⟨-, written, hmeans, hw⟩ := s.runInv_iff.1 hs
  obtain ⟨-, hout, -⟩ := h.appended
  have hin : t.input t.chunkLen = written ++ (s.pending ++ [s.imemByte s.pos]) := by
    rw [h.frame.input, h.frame.chunkLen, ← h.last, State.input_succ, ← hw, List.append_assoc]
  rw [hout, hin]
  exact hmeans.append h.meaning

/-- A run on the empty chunk is over at once, with nothing written (R89, R101). -/
theorem State.started_zero_expand (s : State) :
    expand (s.started 0).output = .ok ((s.started 0).input (s.started 0).chunkLen) := expand_nil

/-- Settles O51: in a run only a finalize transition sets DONE; the empty chunk is completed by START. -/
theorem runEndsInRoundTrip : Obligations.RunEndsInRoundTrip := by
  refine ⟨fun s t hs hp h hd => ?_, fun s hf hp hl => ?_⟩
  · obtain ⟨script, bs, hf, hfin⟩ := hs.step_finishes_of_done hp h hd
    obtain ⟨hexp, hlen⟩ := hfin.means ((hs.withScript script).runInv hp)
    obtain ⟨-, hchunk, hfault, -⟩ := hfin.frame
    exact ⟨hfin.phase, hfault.trans hf, hexp, hchunk, by simpa using hlen⟩
  · have hstart := exec_start_accepted hp hf (by omega)
    rw [hl] at hstart
    exact ⟨s.started 0, hstart, rfl, hf, rfl, s.started_zero_expand, rfl⟩

end Sys2Proof.Machine
end

section
/-! PROOFS. The document's function (R2, R85): its output is whole packets that mean its input (R72 to R74, R98), and those the
run law and the literal law give (R75, R76). -/

namespace Sys2Proof.Machine

/-! ### Where the scan stands -/

/-- The counts are those of a scan (R28, R29): a buffer of at most 127 literals in RAW, 1 to 127 copies in REPEAT. -/
def ScanReady : Mode → Nat → List Byte → Prop
  | .raw, _, buf => buf.length ≤ 127
  | .rep, rc, _ => 1 ≤ rc ∧ rc ≤ 127

/-- The bytes of which the scan has written nothing: those pending, then those from the cursor on (R11, R30). -/
def unwritten : Mode → Nat → List Byte → List Byte → List Byte
  | .raw, _, buf, input => buf ++ input
  | .rep, _, _, [] => []
  | .rep, rc, _, x :: rest => List.replicate rc x ++ x :: rest

/-! ### Whole packets and what they mean -/

/-- The bytes are packets within the bounds of R73, laid end to end, and stand for `w` (R69, R70). -/
inductive PacketsFor : List Byte → List Byte → Prop
  | raw {lits : List Byte} (h : lits.length ≤ 128) : PacketsFor (rawBytes lits) lits
  | rep {k : Nat} (h1 : 2 ≤ k) (h2 : k ≤ 128) (v : Byte) : PacketsFor (repBytes k v) (List.replicate k v)
  | append {a b w x : List Byte} (ha : PacketsFor a w) (hb : PacketsFor b x) : PacketsFor (a ++ b) (w ++ x)

theorem PacketsFor.nil : PacketsFor [] [] := .raw (lits := []) (by simp)

theorem PacketsFor.means {a w : List Byte} (h : PacketsFor a w) : Means a w := by
  induction h with
  | raw h => exact .rawBytes h
  | rep h1 h2 v => exact .repBytes h1 h2 v
  | append _ _ iha ihb => exact iha.append ihb

theorem WholePackets.append {a b : List Byte} (ha : WholePackets a) (hb : WholePackets b) : WholePackets (a ++ b) := by
  obtain ⟨ps, hps, rfl⟩ := ha
  obtain ⟨qs, hqs, rfl⟩ := hb
  exact ⟨ps ++ qs, by simpa [or_imp, forall_and] using ⟨hps, hqs⟩, by simp⟩

theorem AtMostOnePacket.wholePackets {bs : List Byte} (h : AtMostOnePacket bs) : WholePackets bs := by
  rcases h with rfl | ⟨i, hi, rfl⟩
  · exact ⟨[], by simp, rfl⟩
  · exact ⟨[i], by simpa using hi, by simp⟩

theorem PacketsFor.wholePackets {a w : List Byte} (h : PacketsFor a w) : WholePackets a := by
  induction h with
  | raw h => exact (AtMostOnePacket.rawBytes h).wholePackets
  | rep h1 h2 v => exact (AtMostOnePacket.repBytes h1 h2 v).wholePackets
  | append _ _ iha ihb => exact iha.append ihb

/-- From wherever it stands the scan writes packets for all that is unwritten (R72, R73). -/
theorem encodeFrom_packetsFor {mode : Mode} {rc : Nat} {buf input : List Byte} (h : ScanReady mode rc buf)
    (hne : input ≠ []) : PacketsFor (encodeFrom mode rc buf input) (unwritten mode rc buf input) := by
  fun_induction encodeFrom mode rc buf input with
  | case1 => exact absurd rfl hne
  | case2 _ buf x => exact .raw (by simp [ScanReady] at h ⊢; omega)
  | case3 rc _ x =>
    obtain ⟨h1, h2⟩ := h
    rw [unwritten, ← List.replicate_succ']
    exact .rep (by omega) (by omega) x
  | case4 _ buf x rest ih =>
    exact (PacketsFor.raw (Nat.le_succ_of_le h)).append (ih (by simp [ScanReady]) (by simp))
  | case5 _ buf x y rest _ hfull ih =>
    exact (PacketsFor.raw (by omega)).append (ih (by simp [ScanReady]) (by simp))
  | case6 _ buf x y rest _ hroom ih =>
    have := ih (by simp [ScanReady] at h ⊢; omega) (by simp)
    simpa [unwritten] using this
  | case7 _ x rest ih =>
    exact (PacketsFor.rep (by omega) (by omega) x).append (ih (by simp [ScanReady]) (by simp))
  | case8 rc _ x rest hroom ih =>
    have := ih (by simp [ScanReady] at h ⊢; omega) (by simp)
    simpa [unwritten, List.replicate_succ'] using this
  | case9 rc _ x y rest _ ih =>
    obtain ⟨h1, h2⟩ := h
    have := (PacketsFor.rep (k := rc + 1) (by omega) (by omega) x).append (ih (by simp [ScanReady]) (by simp))
    simpa [unwritten, List.replicate_succ'] using this

theorem encodeChunk_packetsFor (input : List Byte) : PacketsFor (encodeChunk input) input := by
  cases input with
  | nil => exact .nil
  | cons x rest => exact encodeFrom_packetsFor (mode := .raw) (rc := 0) (buf := []) (by simp [ScanReady]) (by simp)

/-- Settles O56: each packet means the bytes it stands for. -/
theorem encodeRoundTrip : Obligations.EncodeRoundTrip := by
  intro input
  obtain ⟨hexp, -⟩ := (encodeChunk_packetsFor input).means
  exact hexp

/-- Settles O58: each packet is within the bounds, and at most twice as long as what it stands for. -/
theorem encodeWritesBoundedPackets : Obligations.EncodeWritesBoundedPackets := by
  intro input
  have hpackets := encodeChunk_packetsFor input
  obtain ⟨-, hlen⟩ := hpackets.means
  exact ⟨hpackets.wholePackets, hlen⟩

/-! ### Maximal runs -/

theorem runsOf_singleton (x : Byte) : runsOf [x] = [(x, 1)] := rfl

theorem runsOf_cons_same {x : Byte} {xs : List Byte} {k : Nat} {more : List (Byte × Nat)}
    (h : runsOf xs = (x, k) :: more) : runsOf (x :: xs) = (x, k + 1) :: more := by
  simp [runsOf, h]

/-- The first run of a sequence begins with its first byte. -/
theorem runsOf_cons (x : Byte) (xs : List Byte) : ∃ k more, 1 ≤ k ∧ runsOf (x :: xs) = (x, k) :: more := by
  rw [runsOf]
  split
  · exact ⟨1, [], Nat.le_refl 1, rfl⟩
  · split
    · subst_vars; exact ⟨_, _, Nat.le_add_left 1 _, rfl⟩
    · exact ⟨1, _, Nat.le_refl 1, rfl⟩

theorem runsOf_cons_other {x y : Byte} (h : x ≠ y) (rest : List Byte) :
    runsOf (x :: y :: rest) = (x, 1) :: runsOf (y :: rest) := by
  obtain ⟨k, more, -, hk⟩ := runsOf_cons y rest
  rw [runsOf, hk]
  simp [h]

theorem runsOf_replicate_append {x : Byte} {xs : List Byte} {k : Nat} {more : List (Byte × Nat)}
    (h : runsOf xs = (x, k) :: more) (n : Nat) : runsOf (List.replicate n x ++ xs) = (x, k + n) :: more := by
  induction n with
  | zero => simpa using h
  | succ n ih => rw [List.replicate_succ, List.cons_append, runsOf_cons_same ih]; rfl

/-! ### The packets of a run and of a segment -/

/-- A run of at most 128 is one packet (R75). -/
theorem runPackets_one {k : Nat} (h : k ≤ 128) (v : Byte) : runPackets v k = repBytes k v := by
  have hq : (k - 2) / 127 = 0 := by omega
  simp [runPackets, hq]

/-- A longer one begins with a packet of 127. -/
theorem runPackets_add {k : Nat} (h : 2 ≤ k) (v : Byte) : runPackets v (k + 127) = repBytes 127 v ++ runPackets v k := by
  have hq : (k + 127 - 2) / 127 = (k - 2) / 127 + 1 := by omega
  have hr : k + 127 - 127 * ((k - 2) / 127 + 1) = k - 127 * ((k - 2) / 127) := by omega
  simp only [runPackets, hq, hr, List.replicate_succ, List.flatten_cons, List.append_assoc]

theorem segmentPackets_nil (atEnd : Bool) : segmentPackets atEnd [] = [] := by cases atEnd <;> rfl

/-- A segment of at most 127 literals, or of 128 at the end of the chunk, is one packet (R76). -/
theorem segmentPackets_one {atEnd : Bool} {lits : List Byte} (h : lits.length ≤ if atEnd then 128 else 127) :
    segmentPackets atEnd lits = rawBytes lits := by
  have hq : (lits.length - if atEnd then 2 else 1) / 127 = 0 := by
    cases atEnd <;> simp at h ⊢ <;> omega
  rw [segmentPackets, hq, literalPackets]

/-- A longer one begins with a packet of 127. -/
theorem segmentPackets_append {atEnd : Bool} {full lits : List Byte} (hfull : full.length = 127)
    (h : (if atEnd then 2 else 1) ≤ lits.length) :
    segmentPackets atEnd (full ++ lits) = rawBytes full ++ segmentPackets atEnd lits := by
  have hq : ((full ++ lits).length - if atEnd then 2 else 1) / 127 =
      (lits.length - if atEnd then 2 else 1) / 127 + 1 := by
    rw [List.length_append, hfull]
    omega
  rw [segmentPackets, hq, literalPackets, List.take_left' hfull, List.drop_left' hfull]
  rfl

/-! ### The laws, run by run -/

theorem lawOutput_literal (lits : List Byte) (v : Byte) (rest : List (Byte × Nat)) :
    lawOutput lits ((v, 1) :: rest) = lawOutput (lits ++ [v]) rest := by
  simp [lawOutput]

theorem lawOutput_run {k : Nat} (hk : k ≠ 1) (lits : List Byte) (v : Byte) (rest : List (Byte × Nat)) :
    lawOutput lits ((v, k) :: rest) = segmentPackets false lits ++ runPackets v k ++ lawOutput [] rest := by
  rw [lawOutput, if_neg hk]

/-- A full buffer is the first packet of its segment where a literal of the segment is still to come, or two of them where
the chunk ends with it (R76, R81). -/
theorem lawOutput_full {full lits : List Byte} {runs : List (Byte × Nat)} (hfull : full.length = 127)
    (hpos : 1 ≤ lits.length) (hend : runs = [] → 2 ≤ lits.length) :
    lawOutput (full ++ lits) runs = rawBytes full ++ lawOutput lits runs := by
  induction runs generalizing lits with
  | nil => exact segmentPackets_append hfull (hend rfl)
  | cons r rest ih =>
    obtain ⟨v, k⟩ := r
    by_cases hk : k = 1
    · subst hk
      rw [lawOutput_literal, lawOutput_literal, List.append_assoc]
      exact ih (by simp) (fun _ => by simpa using hpos)
    · rw [lawOutput_run hk, lawOutput_run hk, segmentPackets_append (atEnd := false) hfull hpos]
      simp only [List.append_assoc]

/-- A run ends the segment before it, which a buffer of at most 127 literals is the whole of (R76, R79). -/
theorem lawOutput_segment {lits : List Byte} (h : lits.length ≤ 127) {k : Nat} (hk : k ≠ 1) (v : Byte)
    (rest : List (Byte × Nat)) :
    lawOutput lits ((v, k) :: rest) = rawBytes lits ++ lawOutput [] ((v, k) :: rest) := by
  rw [lawOutput_run hk, lawOutput_run hk, segmentPackets_one h, segmentPackets_nil, List.nil_append, List.append_assoc]

/-- A run of 2 to 128 is one packet (R75). -/
theorem lawOutput_run_one {k : Nat} (h1 : 2 ≤ k) (h2 : k ≤ 128) (v : Byte) (rest : List (Byte × Nat)) :
    lawOutput [] ((v, k) :: rest) = repBytes k v ++ lawOutput [] rest := by
  rw [lawOutput_run (by omega), segmentPackets_nil, runPackets_one h2, List.nil_append]

/-- A longer run begins with a packet of 127 (R75, R83). -/
theorem lawOutput_run_add {k : Nat} (h : 2 ≤ k) (v : Byte) (rest : List (Byte × Nat)) :
    lawOutput [] ((v, k + 127) :: rest) = repBytes 127 v ++ lawOutput [] ((v, k) :: rest) := by
  rw [lawOutput_run (by omega), lawOutput_run (by omega), runPackets_add h, segmentPackets_nil]
  simp only [List.nil_append, List.append_assoc]

/-! ### The scan obeys the laws -/

/-- What the laws give for the bytes that are unwritten: those in the buffer are a segment's first literals, and the pending
copies the first bytes of a run. -/
def lawFrom (mode : Mode) (rc : Nat) (buf input : List Byte) : List Byte :=
  match mode with
  | .raw => lawOutput buf (runsOf input)
  | .rep => lawOutput [] (runsOf (unwritten .rep rc buf input))

/-- From wherever it stands the scan writes what the laws give. -/
theorem encodeFrom_eq_lawFrom {mode : Mode} {rc : Nat} {buf input : List Byte} (h : ScanReady mode rc buf)
    (hne : input ≠ []) : encodeFrom mode rc buf input = lawFrom mode rc buf input := by
  fun_induction encodeFrom mode rc buf input with
  | case1 => exact absurd rfl hne
  | case2 _ buf x =>
    have hlen : (buf ++ [x]).length ≤ 128 := by simp [ScanReady] at h ⊢; omega
    rw [lawFrom, runsOf_singleton, lawOutput_literal]
    exact (segmentPackets_one (atEnd := true) hlen).symm
  | case3 rc _ x =>
    obtain ⟨h1, h2⟩ := h
    rw [lawFrom, unwritten, runsOf_replicate_append (runsOf_singleton x), Nat.add_comm 1 rc,
      lawOutput_run_one (by omega) (by omega)]
    exact (List.append_nil _).symm
  | case4 _ buf x rest ih =>
    obtain ⟨k, more, hk, hruns⟩ := runsOf_cons x rest
    have hruns := runsOf_cons_same hruns
    rw [ih (by simp [ScanReady]) (by simp), lawFrom, lawFrom, hruns, lawOutput_segment h (by omega)]
    exact congrArg (fun runs => rawBytes buf ++ lawOutput [] runs) hruns
  | case5 _ buf x y rest hxy hfull ih =>
    obtain ⟨k, more, -, hruns⟩ := runsOf_cons y rest
    rw [ih (by simp [ScanReady]) (by simp), lawFrom, lawFrom, runsOf_cons_other hxy, lawOutput_literal]
    exact (lawOutput_full hfull (by simp) (by simp [hruns])).symm
  | case6 _ buf x y rest hxy hroom ih =>
    rw [ih (by simp [ScanReady] at h ⊢; omega) (by simp), lawFrom, lawFrom, runsOf_cons_other hxy, lawOutput_literal]
  | case7 _ x rest ih =>
    obtain ⟨k, more, hk, hruns⟩ := runsOf_cons x rest
    have hruns' := runsOf_replicate_append (runsOf_cons_same hruns)
    have hone : runsOf (unwritten .rep 1 [] (x :: rest)) = (x, k + 1) :: more := runsOf_cons_same hruns
    rw [ih (by simp [ScanReady]) (by simp), lawFrom, lawFrom, hone, unwritten, hruns', lawOutput_run_add (by omega)]
  | case8 rc buf x rest hroom ih =>
    have hsame : unwritten .rep (rc + 1) [] (x :: rest) = unwritten .rep rc buf (x :: x :: rest) := by
      simp [unwritten, List.replicate_succ']
    rw [ih (by simp [ScanReady] at h ⊢; omega) (by simp), lawFrom, lawFrom, hsame]
  | case9 rc _ x y rest hxy ih =>
    obtain ⟨h1, h2⟩ := h
    rw [ih (by simp [ScanReady]) (by simp), lawFrom, lawFrom, unwritten,
      runsOf_replicate_append (runsOf_cons_other hxy rest), Nat.add_comm 1 rc, lawOutput_run_one (by omega) (by omega)]

/-- Settles O57: at its start the scan stands before the whole chunk, with no literal pending. -/
theorem encodeObeysRunAndLiteralLaws : Obligations.EncodeObeysRunAndLiteralLaws := by
  intro input
  cases input with
  | nil => rfl
  | cons x rest => exact encodeFrom_eq_lawFrom (mode := .raw) (rc := 0) (buf := []) (by simp [ScanReady]) (by simp)

end Sys2Proof.Machine
end

section
/-! PROOFS. The run law of the machine (R77, R85, R99, R134): a run left alone takes one step for each byte that is left of the
chunk, and writes what the document's scan writes. -/

namespace Sys2Proof.Machine

/-- Settles O53: what the document's scan writes from a state on is the output that remains. -/
theorem runFinishesTheDocumentsScan : Obligations.RunFinishesTheDocumentsScan :=
  fun _ hs hp hf hscript hroom => State.Running.finishes ⟨hs, hp, hf, hscript, hroom⟩ rfl

/-- Before its last byte a run left alone moves one byte on with each step (R77). -/
theorem State.Running.run_pos {k : Nat} {s : State} (h : s.Running) (hk : s.pos + k < s.chunkLen) :
    ∃ v : State, core.run k s = .next v ∧ v.Running ∧ v.pos = s.pos + k := by
  induction k generalizing s with
  | zero => exact ⟨s, rfl, h, rfl⟩
  | succ k ih =>
    obtain ⟨u, bs, hstep, ⟨hadv, hu⟩ | hfin⟩ := h.step
    · have hpos := hadv.pos
      obtain ⟨v, hrun, hv, hvpos⟩ := ih hu (by rw [hadv.frame.chunkLen]; omega)
      exact ⟨v, (core_run_succ hstep k).trans hrun, hv, by omega⟩
    · have := hfin.last
      omega

/-- Settles O54: START puts the CORE before the whole chunk with nothing written; the document's encoding means the chunk. -/
theorem startedRunEncodesTheChunk : Obligations.StartedRunEncodesTheChunk := by
  intro s hs hp hf hscript h1 hl hroom
  have hrun : (s.started s.lenReg).Running := ⟨hs.started hl, by simp; omega, hf, hscript, hroom⟩
  obtain ⟨t, ht, hdone, hidle, hfault, hout⟩ := hrun.finishes (n := s.lenReg) (by simp)
  have henc : t.output = encodeChunk (s.input s.lenReg) := hout
  refine ⟨s.started s.lenReg, t, exec_start_accepted hp hf hl, ht, hdone, hidle, hfault, henc, ?_, ?_, fun k hk => ?_⟩
  · rw [← henc, State.output_length]
  · rw [henc]; exact encodeRoundTrip _
  · obtain ⟨v, hv, hvrun, hpos⟩ := hrun.run_pos (k := k) (by simpa using hk)
    exact ⟨v, hv, hvrun.inv.done_eq hvrun.phase, hvrun.phase, by simpa using hpos⟩

end Sys2Proof.Machine
end

section
/-! PROOFS. The scan transitions (41_scan.md R78 to R84), each from every state in which the CORE has a step, and the transition
that a step runs (R60, R61). -/

namespace Sys2Proof.Machine

/-! ### What the transitions have in common -/

section
variable {i : Instr} {s : State} (hi : isTransition i = true)
include hi

/-- A transition begins with the part common to all (R78). -/
theorem exec_transition_eq_coreStep (s : State) : ∃ body, exec i s = s.coreStep body := by
  cases i <;> cases hi <;> exact ⟨_, rfl⟩

/-- From a state that breaks the check of R62 a transition raises INVARIANT (R112). -/
theorem exec_transition_invariant (hp : s.phase = .run) (hf : s.fault = false) (hinv : s.invariantsHold = false) :
    exec i s = .next (s.raise .invariant) := by
  obtain ⟨body, e⟩ := exec_transition_eq_coreStep hi s
  simp [e, State.coreStep, hp, hf, hinv]

variable {bs : List Byte} {upd : State → State} (hr : s.coreReady)
  (hnext : ∀ {t}, exec i s = .next t → TransitionNext s t bs upd)
include hr hnext

/-- A transition whose packet does not fit raises OUT_OVERFLOW (R92, R111). -/
theorem exec_transition_overflow (hbs : bs ≠ []) (hfit : ¬ s.fits bs.length) :
    exec i s = .next (s.raise .outOverflow) := by
  obtain ⟨t, ht⟩ := exec_transition_isNext hi hr
  obtain ⟨-, -, hinv, -⟩ := hr
  obtain ⟨-, -, ⟨hbroken, -⟩ | ⟨-, -, -, rfl⟩ | ⟨-, hfits, -⟩⟩ := hnext ht
  · rw [hinv] at hbroken; cases hbroken
  · exact ht
  · exact absurd (hfits hbs) hfit

/-- A transition whose packet fits appends it, and has its effect within the frame (R91, R92). -/
theorem exec_transition_writes (hfit : bs ≠ [] → s.fits bs.length)
    (hupd : ScanRegistersOnly (s.emitAll bs) (upd (s.emitAll bs))) :
    exec i s = .next (upd (s.emitAll bs)) ∧ Appended s (upd (s.emitAll bs)) bs ∧ CoreFrame s (upd (s.emitAll bs)) := by
  obtain ⟨t, ht⟩ := exec_transition_isNext hi hr
  obtain ⟨-, -, hinv, -⟩ := hr
  obtain ⟨-, -, ⟨hbroken, -⟩ | ⟨-, hbs, hfits, -⟩ | ⟨-, -, rfl⟩⟩ := hnext ht
  · rw [hinv] at hbroken; cases hbroken
  · exact absurd (hfit hbs) hfits
  · exact ⟨ht, hupd.appended, by rw [hupd]; simp [CoreFrame, State.imemByte]⟩

end

/-- Settles O19: the part common to all transitions stops them. -/
theorem noTransitionWithoutAStep : Obligations.NoTransitionWithoutAStep := by
  intro i s hi
  obtain ⟨body, e⟩ := exec_transition_eq_coreStep hi s
  exact ⟨fun hf => by simp [e, State.coreStep, hf], fun hf hp => by simp [e, State.coreStep, hf, hp]⟩

/-! ### The selected transition -/

/-- The selector of a state decodes to the transition that its predicates select (R60, R61). -/
theorem State.decodeSelector_of_selector {s : State} (hr : s.coreReady) {sel : BitVec 4} (h : s.selector? = some sel) :
    decodeSelector sel = s.selected := by
  obtain ⟨-, -, hinv, hl⟩ := hr
  rw [State.selector_eq (s.invariantsHold_iff.1 hinv).1 hl] at h
  cases h
  exact s.selected_eq

/-- SAT (R26) in the words of the registers. -/
theorem State.sat_eq (s : State) :
    s.sat = decide ((s.mode = .raw ∧ s.blen = 127#8) ∨ (s.mode = .rep ∧ s.rc = 127#8)) := by
  cases hm : s.mode <;> simp [State.sat, hm, maxLen, ← BitVec.toNat_inj, beq_eq_decide]

/-- A delayed move lets the CORE step first (R121; log 3). -/
theorem State.turn_delayed {s : State} {m : HostMove} {rest : List HostMove} (hs : s.script = m :: rest)
    (hm : 0 < m.after) (he : s.coreEnabled = true) :
    s.turn = State.coreTurn { s with script := { m with after := m.after - 1 } :: rest } := by
  simp [State.turn, hs, hm, he]

/-- Settles O39: the four bits are the predicates of the state, and the CORE's turn runs what they select. -/
theorem stepRunsTheSelectedTransition : Obligations.StepRunsTheSelectedTransition := by
  intro s ⟨hp, hf, hinv, hl⟩ sel hfin hmode heq hsat
  have hsel : decodeSelector sel = s.selected := by
    rw [← selector_eq_bits sel, hfin, hmode, heq, hsat, ← s.selected_eq, ← s.sat_eq, ← Mode.bit_eq]
    simp [State.fin, beq_eq_decide]
  have he : s.coreEnabled = true := s.coreEnabled_iff.2 ⟨hp, hf⟩
  rw [hsel]
  refine ⟨fun hs => ?_, fun m rest hs hm => ?_, fun m rest hs hact hm hd => ?_⟩
  · exact (State.turn_core hs he).trans (State.coreTurn_eq hinv hl)
  · exact (State.turn_delayed hs hm he).trans (State.coreTurn_eq hinv hl)
  · exact (State.turn_waiting hs ((s.waiting_iff _).2 ⟨hact, hd, hf⟩) hm he).trans (State.coreTurn_eq hinv hl)

/-! ### The transitions of RAW -/

/-- Settles O11: the buffer's packet is written, if there is one, and the cursor's byte is the first copy. -/
theorem scanRawEqFlushesAndCounts : Obligations.ScanRawEqFlushesAndCounts := by
  refine ⟨fun s hr hfit => ?_, fun s hr hb hfit => ?_, fun _ => exec_transition_invariant rfl,
    fun sat => by cases sat <;> rfl⟩
  · have hroom : rawBytes s.bufBytes ≠ [] → s.fits (rawBytes s.bufBytes).length := fun hne => by
      have hb : s.blen ≠ 0#8 := fun hb => hne (by rw [State.bufBytes_eq_nil hb]; rfl)
      simpa [State.rawBytes_bufBytes hb] using hfit hb
    obtain ⟨h, happ, hframe⟩ := exec_transition_writes rfl hr exec_scanRawEq_next hroom rfl
    exact ⟨_, h, happ, hframe, by simp⟩
  · refine exec_transition_overflow rfl hr exec_scanRawEq_next ?_ ?_ <;> rw [State.rawBytes_bufBytes hb]
    · simp
    · simpa using hfit

theorem State.mode_of_selected_scanRawNe {s : State} (h : s.selected = .scanRawNe) : s.mode = .raw := by
  cases hm : s.mode with
  | raw => rfl
  | rep =>
    simp only [State.selected, hm, Mode.bit, if_true] at h
    split_ifs at h

/-- Settles O12: the state after the step meets R28 again, which says that the byte appended differs from the next one and
that no two adjacent literals are equal. -/
theorem scanRawNeAppendsTheCursorByte : Obligations.ScanRawNeAppendsTheCursorByte := by
  have hwrites := fun (s : State) (hr : s.coreReady) =>
    exec_transition_writes rfl hr exec_scanRawNe_next (fun h => absurd rfl h) rfl
  refine ⟨fun s hr hm hb => ?_, fun _ => exec_transition_invariant rfl,
    fun s t hs hr hsel ht => ?_, rfl⟩
  · obtain ⟨h, happ, hframe⟩ := hwrites s hr
    refine ⟨_, h, happ, hframe, fun i => s.append_bufByte _ i, ?_, rfl, rfl, rfl, rfl, rfl⟩
    simp; omega
  · have hsel : s.selected = .scanRawNe := (State.decodeSelector_of_selector hr hsel).symm
    have hmode := State.mode_of_selected_scanRawNe hsel
    obtain ⟨h, -⟩ := hwrites s hr
    obtain ⟨hp, -, hinv, hl⟩ := hr
    have hturn : s.coreTurn = .next t := by rw [State.coreTurn_eq hinv hl, hsel, ht]
    cases h.symm.trans ht
    obtain ⟨hraw, -⟩ := (hs.coreTurn hp hturn).runInv hp
    obtain ⟨-, -, -, -, -, hnext, hadj⟩ := hraw hmode
    exact ⟨hnext (Nat.succ_pos _), fun i hlt => hadj i (by omega)⟩

theorem rawBytes_length_le (lits : List Byte) : (rawBytes lits).length ≤ lits.length + 1 := by
  unfold rawBytes
  split <;> simp

theorem TransitionNext.olen_le {s t : State} {bs : List Byte} {upd : State → State} {n : Nat}
    (h : TransitionNext s t bs upd) (hupd : ∀ u, ScanRegistersOnly u (upd u)) (hlen : bs.length ≤ n) :
    t.olen ≤ s.olen + n := by
  rcases h.raises_or with ⟨c, rfl⟩ | ⟨-, -, rfl⟩
  · simp
  · rw [hupd]; simpa using hlen

/-- No transition but FIN_RAW writes more than 128 bytes (R73). -/
theorem exec_transition_olen_le {i : Instr} {s t : State} (hi : isTransition i = true) (hfin : i ≠ .finRaw)
    (hinv : s.invariantsHold = true) (h : exec i s = .next t) : t.olen ≤ s.olen + 128 := by
  have hbuf : (rawBytes s.bufBytes).length ≤ 128 := by
    have := rawBytes_length_le s.bufBytes
    have := State.invariantsHold_blen hinv
    rw [State.bufBytes_length] at *
    omega
  cases i <;> cases hi
  case finRaw => exact absurd rfl hfin
  case scanRawNe => exact (exec_scanRawNe_next h).olen_le (fun _ => rfl) (by simp)
  case scanRawNeFull => exact (exec_scanRawNeFull_next h).olen_le (fun _ => rfl) hbuf
  case scanRawEq => exact (exec_scanRawEq_next h).olen_le (fun _ => rfl) hbuf
  case scanRepNe => exact (exec_scanRepNe_next h).olen_le (fun _ => rfl) (by simp)
  case scanRepEq => exact (exec_scanRepEq_next h).olen_le (fun _ => rfl) (by simp)
  case scanRepEqSat => exact (exec_scanRepEqSat_next h).olen_le (fun _ => rfl) (by simp [repBytes])
  case finRep => exact (exec_finRep_next h).olen_le (fun _ => rfl) (by simp)

/-- The packet of a full buffer has control byte 7E (R81, R94). -/
theorem State.rawBytes_bufBytes_full {s : State} (hb : s.blen = 127#8) :
    rawBytes s.bufBytes = 0x7E#8 :: s.bufBytes := by
  rw [State.rawBytes_bufBytes (by simp [hb]), hb]
  rfl

/-- Settles O13: the packet of 127 literals is written, and the cursor's byte starts the fresh buffer. -/
theorem scanRawNeFullFlushesThenAppends : Obligations.ScanRawNeFullFlushesThenAppends := by
  refine ⟨fun s hr hm hb hfit => ?_, fun s hr hm hb hfit => ?_,
    fun _ => exec_transition_invariant rfl, fun i s t hi hr h holen => ?_, rfl⟩
  · have hpacket := State.rawBytes_bufBytes_full hb
    obtain ⟨h, happ, hframe⟩ := exec_transition_writes rfl hr exec_scanRawNeFull_next
      (fun _ => by simpa [hpacket, hb] using hfit) rfl
    refine ⟨_, h, hpacket ▸ happ, hframe, fun i => ?_, by simp⟩
    simp only [State.bufByte, Memory.read_write, State.emitAll_epoch]
    split <;> simp
  · refine exec_transition_overflow rfl hr exec_scanRawNeFull_next ?_ ?_ <;>
      rw [State.rawBytes_bufBytes_full hb]
    · simp
    · simpa [hb] using hfit
  · obtain ⟨-, -, hinv, -⟩ := hr
    by_contra hfin
    have := exec_transition_olen_le hi hfin hinv h
    omega

/-! ### The transitions of REPEAT -/

/-- Settles O14: RC counts to at most 127, within its eight bits. -/
theorem scanRepEqCountsOneMore : Obligations.ScanRepEqCountsOneMore := by
  refine ⟨fun s hr hm hrc => ?_, fun _ => exec_transition_invariant rfl, rfl⟩
  obtain ⟨h, happ, hframe⟩ := exec_transition_writes rfl hr exec_scanRepEq_next (fun h => absurd rfl h) rfl
  refine ⟨_, h, happ, hframe, ?_, rfl, rfl, rfl, rfl, rfl, rfl⟩
  simp; omega

/-- Settles O15: R29 says that the pending copies equal the cursor's byte. -/
theorem scanRepEqSatEmits127Copies : Obligations.ScanRepEqSatEmits127Copies := by
  refine ⟨fun s hr hm hrc hfit => ?_, fun s hr hm hrc hfit => ?_,
    fun _ => exec_transition_invariant rfl, fun s hs hp hm hrc => ?_, rfl⟩
  · obtain ⟨h, happ, hframe⟩ := exec_transition_writes rfl hr exec_scanRepEqSat_next (fun _ => hfit) rfl
    exact ⟨_, h, happ, hframe, by simp⟩
  · exact exec_transition_overflow rfl hr exec_scanRepEqSat_next (by simp [repBytes]) hfit
  · obtain ⟨-, hrep, -⟩ := hs.runInv hp
    obtain ⟨-, -, -, -, -, hcopies⟩ := hrep hm
    simpa [hrc] using hcopies

/-- Settles O16: the count, 2 to 128, has the control byte 257 less it. -/
theorem scanRepNeEmitsTheRun : Obligations.ScanRepNeEmitsTheRun := by
  refine ⟨fun s hr hm hfit => ?_, fun s hr hm hfit => ?_,
    fun _ => exec_transition_invariant rfl, fun sat => by cases sat <;> rfl⟩
  · obtain ⟨h, happ, hframe⟩ := exec_transition_writes rfl hr exec_scanRepNe_next (fun _ => hfit) rfl
    obtain ⟨-, -, hinv, -⟩ := hr
    rw [State.repeatControl_rc hinv, if_pos hm] at h happ hframe
    exact ⟨_, h, happ, hframe, by simp⟩
  · exact exec_transition_overflow rfl hr exec_scanRepNe_next (by simp) hfit

end Sys2Proof.Machine
end

section
/-! PROOFS. The finalize transitions (42_finalize.md R87, R88), and that RC outlives the run that FIN_REP ends. -/

namespace Sys2Proof.Machine

/-! ### FIN_RAW -/

/-- The packet of the buffer and one byte more: BLEN, taken before the append, is its control byte (R87, R94). -/
theorem State.rawBytes_bufBytes_append (s : State) (b : Byte) :
    rawBytes (s.bufBytes ++ [b]) = s.blen :: s.bufBytes ++ [b] := by
  simp [rawBytes, State.bufBytes_length]

theorem State.rawBytes_bufBytes_append_length (s : State) (b : Byte) :
    (rawBytes (s.bufBytes ++ [b])).length = s.blen.toNat + 2 := by
  simp [State.rawBytes_bufBytes_append, State.bufBytes_length]

/-- FIN_RAW writes BLEN + 2 bytes, so 129 only with a buffer of 127 (R73, R87). -/
theorem exec_finRaw_blen_of_largest {s t : State} (hinv : s.invariantsHold = true) (h : exec .finRaw s = .next t)
    (holen : s.olen + 129 ≤ t.olen) : s.blen = 127#8 := by
  have hle := (exec_finRaw_next h).olen_le (fun _ => rfl) (s.rawBytes_bufBytes_append_length _).le
  have hblen := State.invariantsHold_blen hinv
  exact BitVec.eq_of_toNat_eq (by simp; omega)

/-- Settles O17: the buffer's packet with the cursor's byte at its end is written, and no other transition writes as much. -/
theorem finRawFlushesTheRest : Obligations.FinRawFlushesTheRest := by
  refine ⟨fun s hr hm hfit => ?_, fun s hr hm hfit => ?_, fun _ => exec_transition_invariant rfl,
    fun i s t hi hr h holen => ?_, by decide⟩
  · have hpacket := s.rawBytes_bufBytes_append (s.imemByte s.pos)
    obtain ⟨h, happ, hframe⟩ := exec_transition_writes rfl hr exec_finRaw_next
      (fun _ => by rwa [State.rawBytes_bufBytes_append_length]) rfl
    refine ⟨_, h, hpacket ▸ happ, hframe, fun i => ?_, by simp [hm]⟩
    rw [← s.append_bufByte]
    apply State.bufByte_congr <;> simp
  · exact exec_transition_overflow rfl hr exec_finRaw_next (by simp [State.rawBytes_bufBytes_append])
      (by rwa [State.rawBytes_bufBytes_append_length])
  · obtain ⟨-, -, -, hlargest, -⟩ := scanRawNeFullFlushesThenAppends
    obtain rfl := hlargest i s t hi hr h holen
    obtain ⟨-, -, hinv, -⟩ := hr
    exact ⟨rfl, exec_finRaw_blen_of_largest hinv h holen⟩

/-! ### What changes RC while no run is in progress -/

/-- While PHASE = IDLE the machine waits, or the host makes its move (R78, R121, R125). -/
theorem step_of_idle {s t : State} (hp : s.phase = .idle) (h : step s = .next t) :
    t = s ∨ ∃ m rest, s.script = m :: rest ∧ State.hostAct { s with script := rest } m.act = .next t := by
  have hidle : s.coreEnabled ≠ true := fun he => by
    obtain ⟨hrun, -⟩ := s.coreEnabled_iff.1 he
    rw [hp] at hrun; cases hrun
  change s.turn = .next t at h
  rcases s.turn_cases with ⟨-, he, -⟩ | ⟨-, -, -, e⟩ | ⟨-, -, -, e⟩ | ⟨_, _, -, he, -⟩ | ⟨_, _, -, -, he, -⟩ |
    ⟨_, _, -, -, -, e⟩ | ⟨m, rest, hs, -, -, e⟩
  · exact absurd he hidle
  · rw [e] at h; cases h
  · rw [e] at h; cases h; exact .inl rfl
  · exact absurd he hidle
  · exact absurd he hidle
  · rw [e] at h; cases h; exact .inl rfl
  · exact .inr ⟨m, rest, hs, e ▸ h⟩

/-- A move of the host is a power-on reset or a command, or it writes at most LEN, IMEM and what is the host's own (R119). -/
theorem hostAct_resets_or_commands_or_keeps {s t : State} {act : HostAct} (h : s.hostAct act = .next t) :
    act = .powerOn ∨ (∃ v, act = .writeReg .ctrl v) ∨
      t = { s with lenReg := t.lenReg, imem := t.imem, received := t.received, reader := t.reader } := by
  cases act with
  | writeImem a b =>
    simp only [State.hostAct] at h
    split_ifs at h
    cases h; simp
  | writeReg r v =>
    cases r with
    | ctrl => exact .inr (.inl ⟨v, rfl⟩)
    | len => cases h; simp
    | status => cases h; simp
    | olen => cases h; simp
  | readReg r =>
    simp only [State.hostAct] at h
    split_ifs at h
    cases h; simp [State.receive]
  | readOmem a =>
    simp only [State.hostAct] at h
    split_ifs at h
    cases h; simp [State.receive]
  | wait => cases h; simp [State.receive]
  | powerOn => exact .inl rfl
  | collect =>
    simp only [State.hostAct] at h
    split_ifs at h
    cases h; simp
  | feed bytes => cases h; simp
  | readPacket => exact .inr (.inr (by rw [hostAct_readPacket_readerOnly h]))

/-- Of the commands only START and RESET change RC (R16, R63). -/
theorem exec_command_of_rc_ne {s t : State} {cmd : BitVec 2} (h : exec (decodeCommand cmd) s = .next t)
    (hrc : t.rc ≠ s.rc) : cmd = 1#2 ∨ cmd = 3#2 := by
  obtain ⟨-, hwriters, -⟩ := onlyTheirWritersChangeModeRcBuf _ _ _ h
  have hwriter := hwriters hrc
  clear h hwriters
  revert cmd; decide

/-- A move of the host that changes RC is a START, a RESET or a power-on reset (R16). -/
theorem hostAct_of_rc_ne {s t : State} {act : HostAct} (h : s.hostAct act = .next t) (hrc : t.rc ≠ s.rc) :
    act = .powerOn ∨ ∃ v, act = .writeReg .ctrl v ∧ (v % 4 = 1 ∨ v % 4 = 3) := by
  rcases hostAct_resets_or_commands_or_keeps h with rfl | ⟨v, rfl⟩ | hkeeps
  · exact .inl rfl
  · refine .inr ⟨v, rfl, ?_⟩
    simpa [← BitVec.toNat_inj] using exec_command_of_rc_ne h hrc
  · exact absurd (by rw [hkeeps]) hrc

/-! ### FIN_REP -/

/-- Settles O18: the count, 2 to 128, has the control byte 257 less it, and stays in RC, which no step writes between runs. -/
theorem finRepEmitsTheRun : Obligations.FinRepEmitsTheRun := by
  refine ⟨fun s hr hm hfit => ?_, fun s hr hm hfit => ?_, fun _ => exec_transition_invariant rfl,
    fun s t hp h hrc => ?_, by decide⟩
  · obtain ⟨h, happ, hframe⟩ := exec_transition_writes rfl hr exec_finRep_next (fun _ => hfit) rfl
    obtain ⟨-, -, hinv, -⟩ := hr
    obtain ⟨-, -, hrep⟩ := s.invariantsHold_iff.1 hinv
    obtain ⟨-, -, hrc⟩ := hrep hm
    rw [State.repeatControl_rc hinv, if_pos hm] at h happ hframe
    refine ⟨_, h, happ, hframe, ?_, by simp [hm]⟩
    simp; omega
  · exact exec_transition_overflow rfl hr exec_finRep_next (by simp) hfit
  · rcases step_of_idle hp h with rfl | ⟨m, rest, hs, hact⟩
    · exact absurd rfl hrc
    · exact ⟨m, rest, hs, hostAct_of_rc_ne hact hrc⟩

end Sys2Proof.Machine
end

section
/-! PROOFS. The packet builder (43_emission.md): the control bytes (R93), FlushRaw (R94) and EmitRepeat (R95). -/

namespace Sys2Proof.Machine

/-! ### The control bytes -/

/-- The formula of R93 over the naturals, where neither subtraction is cut off at 0. -/
theorem repeatControl_toNat {k : Nat} (h1 : 1 ≤ k) (h2 : k ≤ 256) : (repeatControl k).toNat = (256 - (k - 1)) % 256 := by
  simp only [repeatControl, BitVec.toNat_ofInt]
  omega

theorem rawControl_toNat {b : BitVec 8} (h : 1 ≤ b.toNat) : (rawControl b).toNat = b.toNat - 1 :=
  BitVec.toNat_sub_of_le (BitVec.le_def.2 h)

/-- Settles O21: for 2 to 128 copies the formula of R93 needs no modular step, for one copy it wraps to 0. -/
theorem repeatControlByte : Obligations.RepeatControlByte := by
  refine ⟨fun k h1 h2 => ?_, by decide, by decide, fun _ => repeatControl_toNat, fun _ h _ => rawControl_toNat h⟩
  rw [repeatControl_toNat (by omega) (by omega)]
  omega

/-! ### FlushRaw -/

theorem State.flushRaw_of_empty {s : State} (hb : s.blen = 0#8) : s.flushRaw = some s := by
  rcases s.flushRaw_spec with ⟨-, e⟩ | ⟨hne, -⟩ | ⟨hne, -⟩
  · exact e
  all_goals exact absurd hb hne

theorem State.flushRaw_of_fits {s : State} (hb : s.blen ≠ 0#8) (hf : s.fits (s.blen.toNat + 1)) :
    s.flushRaw = some { s.emitAll (rawControl s.blen :: s.bufBytes) with blen := 0#8 } := by
  rcases s.flushRaw_spec with ⟨h0, -⟩ | ⟨-, -, e⟩ | ⟨-, hnf, -⟩
  · exact absurd h0 hb
  · exact e
  · exact absurd hf hnf

theorem State.flushRaw_of_not_fits {s : State} (hb : s.blen ≠ 0#8) (hf : ¬ s.fits (s.blen.toNat + 1)) :
    s.flushRaw = none := by
  rcases s.flushRaw_spec with ⟨h0, -⟩ | ⟨-, hfit, -⟩ | ⟨-, -, e⟩
  · exact absurd h0 hb
  · exact absurd hfit hf
  · exact e

/-- Settles O22: the packet's bytes go to OMEM and OLEN alone, and clearing BLEN touches neither. -/
theorem flushRawWritesTheBuffer : Obligations.FlushRawWritesTheBuffer := by
  refine ⟨fun s => State.flushRaw_of_empty, fun s hb hf => ?_, fun s => State.flushRaw_of_not_fits⟩
  refine ⟨_, State.flushRaw_of_fits hb hf, (s.emitAll_appended _).congr rfl rfl rfl rfl rfl rfl, ?_⟩
  rw [s.emitAll_eq]

/-! ### EmitRepeat -/

/-- Settles O23: a count of 2 to 128 has the control byte 257 less it, and the packet goes to OMEM and OLEN alone. -/
theorem emitRepeatWritesTwoBytes : Obligations.EmitRepeatWritesTwoBytes := by
  intro s k v h1 h2
  rw [← repeatControl_eq h1 h2]
  rcases s.emitRepeat_spec k v with ⟨hf, e⟩ | ⟨hf, e⟩
  · exact ⟨fun _ => ⟨_, e, s.emitAll_appended _, s.emitAll_eq _⟩, absurd hf⟩
  · exact ⟨fun h => absurd h hf, fun _ => e⟩

end Sys2Proof.Machine
end

section
/-! PROOFS. Faults (60_exceptions.md R104 to R115): which codes a step may raise, that a fault is precise, that only a reset
leaves it, and that the recommended size of OMEM rules OUT_OVERFLOW out. -/

namespace Sys2Proof.Machine

/-! ### Commands and the fault -/

/-- A START while FAULT = 1 has no effect (R106). -/
theorem exec_start_of_fault {s : State} (hf : s.fault = true) : exec .start s = .next s := by
  simp [exec, execStart, hf]

/-- A START in a run raises START_BUSY (R109). -/
theorem exec_start_of_run {s : State} (hf : s.fault = false) (hp : s.phase = .run) :
    exec .start s = .next (s.raise .startBusy) := by
  simp [exec, execStart, hf, hp]

/-- A START on a chunk that IMEM cannot hold raises LENGTH (R108). -/
theorem exec_start_of_too_long {s : State} (hf : s.fault = false) (hp : s.phase = .idle)
    (hl : s.cfg.pMaxLen < s.lenReg) : exec .start s = .next (s.raise .length) := by
  simp [exec, execStart, State.startOperand, hf, hp, hl]

theorem exec_cmdReserved_of_fault {s : State} (hf : s.fault = true) : exec .cmdReserved s = .next s := by
  simp [exec, execCmdReserved, hf]

theorem exec_cmdReserved_of_not_fault {s : State} (hf : s.fault = false) :
    exec .cmdReserved s = .next (s.raise .badCmd) := by
  simp [exec, execCmdReserved, hf]

/-- While FAULT = 1 every command but RESET has no effect (R106). -/
theorem exec_command_of_fault {s : State} (hf : s.fault = true) {cmd : BitVec 2} (hc : cmd ≠ 3#2) :
    exec (decodeCommand cmd) s = .next s := by
  unfold decodeCommand
  split
  · rfl
  · exact exec_start_of_fault hf
  · exact exec_cmdReserved_of_fault hf
  · rename_i h1 h0
    have hreset : ∀ c : BitVec 2, c.getLsbD 1 = true → c.getLsbD 0 = true → c = 3#2 := by decide
    exact absurd (hreset cmd h1 h0) hc

/-! ### Whose step it is -/

/-- A step is the CORE's, or a wait in place, or a move of the host (R121). -/
theorem step_core_or_wait_or_host {s t : State} (h : step s = .next t) :
    (∃ script, s.coreEnabled = true ∧ State.coreTurn { s with script := script } = .next t) ∨ t = s ∨
      ∃ m rest, s.script = m :: rest ∧ State.hostAct { s with script := rest } m.act = .next t := by
  change s.turn = .next t at h
  rcases s.turn_cases with ⟨-, he, e⟩ | ⟨-, -, -, e⟩ | ⟨-, -, -, e⟩ | ⟨m, rest, -, he, -, e⟩ | ⟨-, -, -, -, he, e⟩ |
    ⟨-, -, -, -, -, e⟩ | ⟨m, rest, hs, -, -, e⟩ <;> rw [e] at h
  · exact .inl ⟨s.script, he, h⟩
  · cases h
  · cases h; exact .inr (.inl rfl)
  · exact .inl ⟨_, he, h⟩
  · exact .inl ⟨s.script, he, h⟩
  · cases h; exact .inr (.inl rfl)
  · exact .inr (.inr ⟨m, rest, hs, h⟩)

theorem State.coreEnabled_of_fault {s : State} (hf : s.fault = true) : s.coreEnabled = false := by
  simp [State.coreEnabled, hf]

/-! ### What a step does to FAULT and FCODE -/

/-- What becomes of FAULT and FCODE where only the faults `codes` can be raised (R23, R104, R123). -/
inductive FaultStep (codes : List FCode) (s : State) : State → Prop
  /-- They stay. -/
  | keeps {t : State} (hf : t.fault = s.fault) (hc : t.fcode = s.fcode) : FaultStep codes s t
  /-- A reset clears them. -/
  | clears {t : State} (hf : t.fault = false) (hc : t.fcode = .none) : FaultStep codes s t
  /-- A fault is raised, and nothing else is written (R105). -/
  | raises {c : FCode} (hc : c ∈ codes) : FaultStep codes s (s.raise c)

theorem FaultStep.mono {codes codes' : List FCode} {s t : State} (h : FaultStep codes s t) (hsub : codes ⊆ codes') :
    FaultStep codes' s t := by
  cases h with
  | keeps hf hc => exact .keeps hf hc
  | clears hf hc => exact .clears hf hc
  | raises hc => exact .raises (hsub hc)

/-- A code that cannot be raised stands in FCODE only if it stood there before. -/
theorem FaultStep.fcode_of_not_mem {codes : List FCode} {s t : State} {c : FCode} (h : FaultStep codes s t)
    (hc : t.fcode = c) (hnone : c ≠ .none) (hmem : c ∉ codes) : s.fcode = c := by
  cases h with
  | keeps _ hsame => exact hsame.symm.trans hc
  | clears _ hclear => exact absurd (hc.symm.trans hclear) hnone
  | raises hraised => cases hc; exact absurd hraised hmem

/-- The codes of the commands' faults (R108 to R110). That of INPUT_RANGE is not among them: its check never applies (R107). -/
def commandCodes : List FCode := [.badCmd, .startBusy, .length]

/-- The codes of the CORE's faults (R111, R112). -/
def coreCodes : List FCode := [.outOverflow, .invariant]

theorem exec_start_faultStep {s t : State} (h : exec .start s = .next t) : FaultStep commandCodes s t := by
  cases hf : s.fault with
  | true => rw [exec_start_of_fault hf] at h; cases h; exact .keeps rfl rfl
  | false =>
    cases hp : s.phase with
    | run => rw [exec_start_of_run hf hp] at h; cases h; exact .raises (by decide)
    | idle =>
      rcases Nat.lt_or_ge s.cfg.pMaxLen s.lenReg with hl | hl
      · rw [exec_start_of_too_long hf hp hl] at h; cases h; exact .raises (by decide)
      · rw [exec_start_accepted hp hf hl] at h; cases h; exact .keeps rfl rfl

theorem exec_command_faultStep {s t : State} {cmd : BitVec 2} (h : exec (decodeCommand cmd) s = .next t) :
    FaultStep commandCodes s t := by
  unfold decodeCommand at h
  split at h
  · cases h; exact .keeps rfl rfl
  · exact exec_start_faultStep h
  · rcases execCmdReserved_next h with rfl | rfl
    · exact .keeps rfl rfl
    · exact .raises (by decide)
  · cases h; exact .clears rfl rfl

/-- The host raises a fault by a command only, and clears it by a reset (R104, R115). -/
theorem hostAct_faultStep {s t : State} {act : HostAct} (h : s.hostAct act = .next t) : FaultStep commandCodes s t := by
  rcases hostAct_resets_or_commands_or_keeps h with rfl | ⟨v, rfl⟩ | hkeeps
  · cases h; exact .clears rfl rfl
  · exact exec_command_faultStep h
  · exact .keeps (by rw [hkeeps]) (by rw [hkeeps])

theorem TransitionNext.faultStep {s t : State} {bs : List Byte} {upd : State → State} (h : TransitionNext s t bs upd)
    (hf : ∀ u, (upd u).fault = u.fault) (hc : ∀ u, (upd u).fcode = u.fcode) : FaultStep coreCodes s t := by
  obtain ⟨-, -, ⟨-, rfl⟩ | ⟨-, -, -, rfl⟩ | ⟨-, -, rfl⟩⟩ := h
  · exact .raises (by decide)
  · exact .raises (by decide)
  · exact .keeps (by simp [hf]) (by simp [hc])

theorem exec_transition_faultStep {i : Instr} {s t : State} (hi : isTransition i = true) (h : exec i s = .next t) :
    FaultStep coreCodes s t := by
  cases i <;> cases hi
  case scanRawNe => exact (exec_scanRawNe_next h).faultStep (fun _ => rfl) fun _ => rfl
  case scanRawNeFull => exact (exec_scanRawNeFull_next h).faultStep (fun _ => rfl) fun _ => rfl
  case scanRawEq => exact (exec_scanRawEq_next h).faultStep (fun _ => rfl) fun _ => rfl
  case scanRepNe => exact (exec_scanRepNe_next h).faultStep (fun _ => rfl) fun _ => rfl
  case scanRepEq => exact (exec_scanRepEq_next h).faultStep (fun _ => rfl) fun _ => rfl
  case scanRepEqSat => exact (exec_scanRepEqSat_next h).faultStep (fun _ => rfl) fun _ => rfl
  case finRaw => exact (exec_finRaw_next h).faultStep (fun _ => rfl) fun _ => rfl
  case finRep => exact (exec_finRep_next h).faultStep (fun _ => rfl) fun _ => rfl

theorem State.coreTurn_faultStep {s t : State} (h : s.coreTurn = .next t) : FaultStep coreCodes s t := by
  rcases State.coreTurn_next h with ⟨-, rfl⟩ | ⟨-, hex⟩
  · exact .raises (by decide)
  · exact exec_transition_faultStep s.isTransition_selected hex

/-- A step raises a fault of a command or of the CORE, on the state with the host's script moved on (R104, R105). -/
theorem step_faultStep {s t : State} (h : step s = .next t) :
    ∃ script, FaultStep (commandCodes ++ coreCodes) { s with script := script } t := by
  rcases step_core_or_wait_or_host h with ⟨script, -, hcore⟩ | rfl | ⟨m, rest, -, hact⟩
  · exact ⟨script, (State.coreTurn_faultStep hcore).mono (List.subset_append_right _ _)⟩
  · exact ⟨t.script, .keeps rfl rfl⟩
  · exact ⟨rest, (hostAct_faultStep hact).mono (List.subset_append_left _ _)⟩

/-! ### OUT_OVERFLOW -/

/-- `State.Running.not_overflows` does not look at the host's pending moves. -/
theorem State.Inv.not_overflows {s t : State} (hs : s.Inv) (hp : s.phase = .run) (hf : s.fault = false)
    (hroom : 2 * s.cfg.pMaxLen ≤ s.cfg.pOmemSize) : ¬ Overflows s t := by
  rintro ⟨-, hshort⟩
  have hrun : ({ s with script := [] } : State).Running := ⟨hs.withScript [], hp, hf, rfl, hroom⟩
  exact hrun.not_overflows ⟨rfl, hshort⟩

/-- With the recommended size the CORE's step raises no fault (R98, R111). -/
theorem State.Inv.coreTurn_fcode {s t : State} (hs : s.Inv) (he : s.coreEnabled = true)
    (hroom : 2 * s.cfg.pMaxLen ≤ s.cfg.pOmemSize) (h : s.coreTurn = .next t) : t.fcode = s.fcode := by
  obtain ⟨hp, hf⟩ := s.coreEnabled_iff.1 he
  have frame_fcode : CoreFrame s t → t.fcode = s.fcode := fun ⟨_, _, _, hc, _⟩ => hc
  rcases hs.coreTurn_outcome hp h with hov | ⟨bs, hadv⟩ | ⟨bs, hfin⟩
  · exact absurd hov (hs.not_overflows hp hf hroom)
  · exact frame_fcode hadv.frame
  · exact frame_fcode hfin.frame

/-- Settles O52: the CORE's packet fits by the bound of R98 in the invariant, and no move of the host raises OUT_OVERFLOW. -/
theorem recommendedSizeNeverOverflows : Obligations.RecommendedSizeNeverOverflows := by
  intro s t hs hroom h hc
  rcases step_core_or_wait_or_host h with ⟨script, he, hcore⟩ | rfl | ⟨m, rest, -, hact⟩
  · exact ((hs.withScript script).coreTurn_fcode he hroom hcore).symm.trans hc
  · exact hc
  · exact (hostAct_faultStep hact).fcode_of_not_mem hc (by decide) (by decide)

/-! ### Raising and leaving a fault -/

/-- Settles O30: the CORE has no step, so that the host moves, and of its moves only the resets do not leave the block alone. -/
theorem onlyResetLeavesAFault : Obligations.OnlyResetLeavesAFault := by
  intro s t hf h
  rcases step_core_or_wait_or_host h with ⟨-, he, -⟩ | rfl | ⟨m, rest, hs, hact⟩
  · rw [State.coreEnabled_of_fault hf] at he; cases he
  · simp [hf]
  · rcases hostAct_resets_or_commands_or_keeps hact with hp | ⟨v, hv⟩ | hkeeps
    · exact .inl ⟨m, rest, hs, .inl hp⟩
    · by_cases hreset : v % 4 = 3
      · exact .inl ⟨m, rest, hs, .inr ⟨v, hv, hreset⟩⟩
      · have hc : BitVec.ofNat 2 v ≠ 3#2 := fun hc => hreset (by simpa using congrArg BitVec.toNat hc)
        rw [hv] at hact
        cases (exec_command_of_fault (s := { s with script := rest }) hf hc).symm.trans hact
        simp [hf]
    · rw [hkeeps]; simp [hf]

/-- Settles O31: where FAULT becomes 1 a fault was raised, which writes FAULT and FCODE only. -/
theorem faultsArePrecise : Obligations.FaultsArePrecise := by
  intro s t hf h ht
  obtain ⟨script, hstep⟩ := step_faultStep h
  cases hstep with
  | keeps hkeep => rw [hkeep, hf] at ht; cases ht
  | clears hclear => rw [hclear] at ht; cases ht
  | raises hc =>
    have hcodes : ∀ c ∈ commandCodes ++ coreCodes, c ≠ .none := by decide
    exact ⟨rfl, hcodes _ hc⟩

/-- Settles O32: INPUT_RANGE is not among the codes that a step may raise. -/
theorem inputRangeNeverFires : Obligations.InputRangeNeverFires := by
  intro s t h hc
  obtain ⟨script, hstep⟩ := step_faultStep h
  exact hstep.fcode_of_not_mem hc (by decide) (by decide)

end Sys2Proof.Machine
end

section
/-! PROOFS. The host's commands (60_exceptions.md R100 to R102, R110), and what the host can do in the faulted state (R106) and
in a run (R122). -/

namespace Sys2Proof.Machine

/-! ### The commands -/

/-- Settles O24: NOP answers the state it was given. -/
theorem nopChangesNothing : Obligations.NopChangesNothing := ⟨rfl, fun _ => rfl⟩

/-- A START with LEN = 0 completes at once (R89, R101). -/
theorem State.started_of_zero (s : State) {n : Nat} (hn : n = 0) :
    s.started n = { s with
      mode := .raw, rc := 0#8, blen := 0#8, pos := 0, olen := 0, chunkLen := 0, phase := .idle, done := true } := by
  subst hn; rfl

/-- A START with LEN = n >= 1 begins a run (R101). -/
theorem State.started_of_one_le (s : State) {n : Nat} (hn : 1 ≤ n) :
    s.started n = { s with
      mode := .raw, rc := 0#8, blen := 0#8, pos := 0, olen := 0, chunkLen := n, phase := .run, done := false } := by
  have hne : n ≠ 0 := by omega
  simp [State.started, hne]

/-- The first step of a run on one byte is FIN_RAW: the cursor stands on the last byte, and MODE is RAW (R61, R101). -/
theorem step_started_one {s : State} (hf : s.fault = false) (hs : s.script = []) (hmax : 1 ≤ s.cfg.pMaxLen) :
    step (s.started 1) = exec .finRaw (s.started 1) := by
  have he : (s.started 1).coreEnabled = true := (s.started 1).coreEnabled_iff.2 ⟨rfl, hf⟩
  have hi : (s.started 1).invariantsHold = true := rfl
  calc step (s.started 1) = (s.started 1).coreTurn := State.turn_core hs he
    _ = exec (s.started 1).selected (s.started 1) := State.coreTurn_eq hi hmax
    _ = exec .finRaw (s.started 1) := rfl

/-- Settles O25: one equation of START for each outcome of its checks. -/
theorem startChecksThenBeginsARun : Obligations.StartChecksThenBeginsARun := by
  refine fun s => ⟨exec_start_of_fault, exec_start_of_run, exec_start_of_too_long, fun hf hp hl hlen => ?_,
    fun hf hp hl hlen => ?_, fun i => by omega, fun hf hp hs hlen hmax => ?_, rfl⟩
  · rw [exec_start_accepted hp hf hl, s.started_of_zero hlen]
  · rw [exec_start_accepted hp hf hl, s.started_of_one_le hlen]
  · refine ⟨s.started 1, ?_, step_started_one hf hs hmax⟩
    rw [exec_start_accepted hp hf (by omega), hlen]

/-- Settles O26: the fault BAD_CMD where FAULT = 0, in any phase, and no effect where FAULT = 1. -/
theorem reservedCommandRaisesBadCmd : Obligations.ReservedCommandRaisesBadCmd := fun _ =>
  ⟨exec_cmdReserved_of_not_fault, exec_cmdReserved_of_fault, rfl⟩

/-! After a reset no byte of IMEM, OMEM or BUF is known (R34, U8, U9). -/

theorem State.performReset_imemByte (s : State) (a : Nat) :
    s.performReset.imemByte a = Config.unspecified .imem (s.epoch + 1) a := rfl

theorem State.performReset_omemByte (s : State) (a : Nat) :
    s.performReset.omemByte a = Config.unspecified .omem (s.epoch + 1) a := rfl

theorem State.performReset_bufByte (s : State) (i : Nat) :
    s.performReset.bufByte i = Config.unspecified .buf (s.epoch + 1) i := rfl

theorem State.performReset_status (s : State) : s.performReset.status = 0x00#8 := by
  change State.reset.status = 0x00#8
  decide

theorem State.performReset_coreEnabled (s : State) : s.performReset.coreEnabled = false := rfl

/-- Settles O27: RESET is the reset of R123, in every state; its registers are those of `State.performReset`. -/
theorem resetFromEveryState : Obligations.ResetFromEveryState := fun s =>
  ⟨s.performReset, rfl, rfl, rfl, rfl, rfl, rfl, rfl, rfl, rfl, rfl, rfl, rfl, s.performReset_status,
    s.performReset_coreEnabled, s.performReset_imemByte, s.performReset_omemByte, s.performReset_bufByte,
    rfl, rfl, rfl, rfl⟩

/-! ### The host in the faulted state and in a run -/

/-- Settles O29: the CORE has no step, so that the output may be read, and no command but RESET has an effect. -/
theorem faultedStateActions : Obligations.FaultedStateActions := by
  intro s hf
  have he := State.coreEnabled_of_fault hf
  refine ⟨he, exec_start_of_fault hf, rfl, exec_cmdReserved_of_fault hf, fun _ => rfl,
    s.hostAct_readReg (r := .status) (by simp), s.hostAct_readReg (r := .olen) fun _ => he, fun a ha => ?_⟩
  rw [State.hostAct_readOmem he, if_pos ha]
  rfl

/-- Settles O35: LEN is written apart from L, and of the commands START faults and RESET ends the run. -/
theorem hostActionsDuringARun : Obligations.HostActionsDuringARun := fun s hp hf =>
  ⟨rfl, exec_start_of_run hf hp, ⟨s.performReset, rfl, rfl, rfl⟩, fun _ => ⟨_, rfl, rfl, rfl, Nat.mod_eq_of_lt⟩,
    s.hostAct_readReg (r := .status) (by simp)⟩

end Sys2Proof.Machine
end

section
/-! PROOFS. A transition of the CORE neither reads nor writes the interface register LEN, the host's script and received values
or the reader (R121, R122, R127). -/

namespace Sys2Proof.Machine

section
variable (lenReg : Nat) (script : List HostMove) (received : List Nat) (reader : Reader)

/-! ### The shared parts of a transition -/

section
variable (s : State)

@[simp] theorem State.withHostSide_cfg : (s.withHostSide lenReg script received reader).cfg = s.cfg := rfl
@[simp] theorem State.withHostSide_phase : (s.withHostSide lenReg script received reader).phase = s.phase := rfl
@[simp] theorem State.withHostSide_pos : (s.withHostSide lenReg script received reader).pos = s.pos := rfl
@[simp] theorem State.withHostSide_olen : (s.withHostSide lenReg script received reader).olen = s.olen := rfl
@[simp] theorem State.withHostSide_fault : (s.withHostSide lenReg script received reader).fault = s.fault := rfl

@[simp] theorem State.withHostSide_invariantsHold :
    (s.withHostSide lenReg script received reader).invariantsHold = s.invariantsHold := rfl

@[simp] theorem State.withHostSide_memRead (a : Nat) :
    (s.withHostSide lenReg script received reader).memRead? a = s.memRead? a := rfl

@[simp] theorem State.withHostSide_raise (c : FCode) :
    (s.withHostSide lenReg script received reader).raise c =
      (s.raise c).withHostSide lenReg script received reader := rfl

@[simp] theorem Outcome.withHostSide_next :
    Outcome.withHostSide (.next s) lenReg script received reader =
      .next (s.withHostSide lenReg script received reader) := rfl

@[simp] theorem Outcome.withHostSide_fault (f : Fault) :
    Outcome.withHostSide (.fault f) lenReg script received reader = .fault f := rfl

theorem State.emitAll_withHostSide (bs : List Byte) :
    (s.withHostSide lenReg script received reader).emitAll bs =
      (s.emitAll bs).withHostSide lenReg script received reader := by
  induction bs generalizing s with
  | nil => rfl
  | cons b bs ih => exact ih (s.emit b)

theorem State.emitPacket_withHostSide (bs : List Byte) :
    (s.withHostSide lenReg script received reader).emitPacket bs =
      (s.emitPacket bs).map (·.withHostSide lenReg script received reader) := by
  simp only [State.emitPacket, State.emitAll_withHostSide, State.withHostSide_olen, State.withHostSide_cfg]
  split <;> rfl

theorem State.flushRaw_withHostSide :
    (s.withHostSide lenReg script received reader).flushRaw =
      s.flushRaw.map (·.withHostSide lenReg script received reader) := by
  rcases s.flushRaw_spec with ⟨hb, e⟩ | ⟨hb, hf, e⟩ | ⟨hb, hf, e⟩
  · rw [e]; exact State.flushRaw_of_empty hb
  · rw [e, State.flushRaw_of_fits (s := s.withHostSide lenReg script received reader) hb hf, State.emitAll_withHostSide]
    rfl
  · rw [e]; exact State.flushRaw_of_not_fits hb hf

end

variable {lenReg script received reader} {s : State}

theorem State.orOverflow_withHostSide {w w' : Option State} {k k' : State → State}
    (hw : w' = w.map (·.withHostSide lenReg script received reader))
    (hk : ∀ t : State, k' (t.withHostSide lenReg script received reader) =
      (k t).withHostSide lenReg script received reader) :
    (s.withHostSide lenReg script received reader).orOverflow w' k' =
      Outcome.withHostSide (s.orOverflow w k) lenReg script received reader := by
  subst hw
  cases w with
  | none => rfl
  | some t => exact congrArg _ (hk t)

theorem State.withCursorByte_withHostSide {k k' : Byte → Outcome}
    (hk : ∀ b, k' b = (k b).withHostSide lenReg script received reader) :
    (s.withHostSide lenReg script received reader).withCursorByte k' =
      (s.withCursorByte k).withHostSide lenReg script received reader := by
  simp only [State.withCursorByte, State.withHostSide_memRead, State.withHostSide_pos]
  cases s.memRead? s.pos with
  | some b => exact hk b
  | none => rfl

theorem State.coreStep_withHostSide {body body' : Outcome}
    (hbody : body' = body.withHostSide lenReg script received reader) :
    (s.withHostSide lenReg script received reader).coreStep body' =
      (s.coreStep body).withHostSide lenReg script received reader := by
  subst hbody
  rcases s.coreStep_spec body with ⟨hf, e⟩ | ⟨hf, hp, e⟩ | ⟨hf, hp, hi, e⟩ | ⟨hf, hp, hi, e⟩ <;> rw [e]
  · simp [State.coreStep, hf]
  · simp [State.coreStep, hf, hp]
  · simp [State.coreStep, hf, hp, hi]
  · simp [State.coreStep, hf, hp, hi]

/-- FlushRaw, and then an update that the host's side is no part of. -/
theorem State.orOverflow_flushRaw_withHostSide (u : State) {k k' : State → State}
    (hk : ∀ t : State, k' (t.withHostSide lenReg script received reader) =
      (k t).withHostSide lenReg script received reader) :
    (s.withHostSide lenReg script received reader).orOverflow (u.withHostSide lenReg script received reader).flushRaw k' =
      Outcome.withHostSide (s.orOverflow u.flushRaw k) lenReg script received reader :=
  State.orOverflow_withHostSide (u.flushRaw_withHostSide _ _ _ _) hk

/-- EmitRepeat, and then such an update. -/
theorem State.orOverflow_emitRepeat_withHostSide (n : Nat) (v : Byte) {k k' : State → State}
    (hk : ∀ t : State, k' (t.withHostSide lenReg script received reader) =
      (k t).withHostSide lenReg script received reader) :
    (s.withHostSide lenReg script received reader).orOverflow
        ((s.withHostSide lenReg script received reader).emitRepeat n v) k' =
      Outcome.withHostSide (s.orOverflow (s.emitRepeat n v) k) lenReg script received reader :=
  State.orOverflow_withHostSide (s.emitPacket_withHostSide _ _ _ _ _) hk

end

/-- Settles O59: no part of a transition looks at the host's side, and its update, which names other fields, leaves it alone. -/
theorem transitionsIgnoreTheHostSide : Obligations.TransitionsIgnoreTheHostSide := by
  intro i s lenReg script received reader hi
  cases i <;> cases hi <;> refine State.coreStep_withHostSide ?_
  case scanRawEq => exact State.orOverflow_flushRaw_withHostSide s fun _ => rfl
  case scanRepEq => rfl
  all_goals refine State.withCursorByte_withHostSide fun b => ?_
  case scanRawNe => rfl
  case scanRawNeFull => exact State.orOverflow_flushRaw_withHostSide s fun _ => rfl
  case scanRepNe => exact State.orOverflow_emitRepeat_withHostSide _ b fun _ => rfl
  case scanRepEqSat => exact State.orOverflow_emitRepeat_withHostSide _ b fun _ => rfl
  case finRaw => exact State.orOverflow_flushRaw_withHostSide (s.append b) fun _ => rfl
  case finRep => exact State.orOverflow_emitRepeat_withHostSide _ b fun _ => rfl

end Sys2Proof.Machine
end

section
/-! PROOFS. Whatever the size of OMEM, a run left alone ends done or with OUT_OVERFLOW (R77, R121, R134), and what a machine
without a run does once nothing is pending (R106, R125). -/

namespace Sys2Proof.Machine

/-! ### Nothing pending and no run -/

/-- With nothing pending a faulted machine is stuck (R106; log 9). -/
theorem State.turn_stuck {s : State} (hs : s.script = []) (hf : s.fault = true) : s.turn = .fault .stuck := by
  simp [State.turn, hs, hf, State.coreEnabled_of_fault hf]

theorem State.coreEnabled_of_idle {s : State} (hp : s.phase = .idle) : s.coreEnabled = false := by
  simp [State.coreEnabled, hp]

/-- With nothing pending an idle machine waits for START (R125; log 9). -/
theorem State.turn_idle {s : State} (hs : s.script = []) (hf : s.fault = false) (hp : s.phase = .idle) :
    s.turn = .next s := by
  simp [State.turn, hs, hf, State.coreEnabled_of_idle hp]

/-- Settles O42: in neither state does the CORE have a step, and FAULT tells the two apart. -/
theorem nothingPendingWaitsOrIsStuck : Obligations.NothingPendingWaitsOrIsStuck := fun _ hs =>
  ⟨State.turn_stuck hs, State.turn_idle hs⟩

/-! ### A run left alone -/

/-- A run left alone takes a step, whatever the size of OMEM: it overflows, advances or finishes (R77, R78). -/
theorem State.Inv.step_outcome {s : State} (hs : s.Inv) (hp : s.phase = .run) (hf : s.fault = false)
    (hscript : s.script = []) : ∃ t, Machine.step s = .next t ∧ StepOutcome s t := by
  have hi := hs.invariantsHold hp
  have ⟨_, _, ⟨_, _, _, hlen, _⟩, _⟩ := hs
  obtain ⟨t, ht⟩ := exec_transition_isNext s.isTransition_selected ⟨hp, hf, hi, hlen⟩
  rw [← State.coreTurn_eq hi hlen] at ht
  have hturn : s.turn = s.coreTurn := State.turn_core hscript (s.coreEnabled_iff.2 ⟨hp, hf⟩)
  exact ⟨t, hturn.trans ht, hs.coreTurn_outcome hp ht⟩

/-- From `s` exactly `n` steps lead to the end of the run, or one of the first `n` steps overflows (R92, R134). -/
def State.EndsOrOverflows (n : Nat) (s : State) : Prop :=
  (∃ t, core.run n s = .next t ∧ t.done = true ∧ t.phase = .idle ∧ t.fault = false) ∨
    ∃ k t, 1 ≤ k ∧ k ≤ n ∧ core.run k s = .next t ∧ t.fault = true ∧ t.fcode = .outOverflow ∧ t.done = false

theorem State.EndsOrOverflows.of_step {n : Nat} {s u : State} (hstep : step s = .next u) (h : u.EndsOrOverflows n) :
    s.EndsOrOverflows (n + 1) := by
  rcases h with ⟨t, hrun, hend⟩ | ⟨k, t, -, hk, hrun, hov⟩
  · exact .inl ⟨t, (core_run_succ hstep n).trans hrun, hend⟩
  · exact .inr ⟨k + 1, t, by omega, by omega, (core_run_succ hstep k).trans hrun, hov⟩

/-- By induction on the bytes that are not read yet: each step that does not overflow reads one of them, and the last one ends
the run (R77, R134). -/
theorem State.Inv.endsOrOverflows {n : Nat} {s : State} (hs : s.Inv) (hp : s.phase = .run) (hf : s.fault = false)
    (hscript : s.script = []) (hn : s.chunkLen - s.pos = n) : s.EndsOrOverflows n := by
  induction n generalizing s with
  | zero =>
    have hpos := (s.invariantsHold_iff.1 (hs.invariantsHold hp)).1
    omega
  | succ n ih =>
    obtain ⟨u, hstep, ⟨rfl, -⟩ | ⟨bs, hadv⟩ | ⟨bs, hfin⟩⟩ := hs.step_outcome hp hf hscript
    · exact .inr ⟨1, _, le_rfl, by omega, core_run_succ hstep 0, rfl, rfl, hs.done_eq hp⟩
    · obtain ⟨-, hchunk, hfault, -, -, -, -, -, hu, -⟩ := hadv.frame
      have hleft : u.chunkLen - u.pos = n := by rw [hchunk, hadv.pos]; omega
      exact (ih (hs.advances hp hadv) (hadv.phase.trans hp) (hfault.trans hf) (hu.trans hscript) hleft).of_step hstep
    · obtain ⟨-, -, hfault, -⟩ := hfin.frame
      obtain rfl : n = 0 := by have := hfin.last; omega
      exact .inl ⟨u, core_run_succ hstep 0, hfin.done, hfin.phase, hfault.trans hf⟩

/-- Settles O55: START puts the CORE before the whole chunk, with LEN bytes to read. -/
theorem everyRunEndsOrFaults : Obligations.EveryRunEndsOrFaults := by
  intro s hs hp hf hscript h1 hl
  have hrun : (s.started s.lenReg).phase = .run := by rw [s.started_of_one_le h1]
  exact ⟨s.started s.lenReg, exec_start_accepted hp hf hl,
    (hs.started hl).endsOrOverflows hrun hf hscript (by simp)⟩

end Sys2Proof.Machine
end
